-- ==== Sys2Proof/Word.lean ====
section
/-! DEFINITION. The word types of the core (spec/00_scope.md section 5: data width 8, frame word width 16,
AC width 7, transaction word 10 bits). -/

namespace Sys2Proof

/-- A bus byte, a DDRAM or CGRAM cell, DR or IR. -/
abbrev Byte := BitVec 8

/-- One word of FRAME: the state of one physical segment column (10_state.md R34). -/
abbrev FrameWord := BitVec 16

/-- The 7-bit address counter's type (10_state.md R11). -/
abbrev Address := BitVec 7

/-- A transaction word `rs rw d[7:0]` (30_encoding.md R80). -/
abbrev BusWord := BitVec 10

end Sys2Proof
end

