-- ==== Sys2Proof/Syntax.lean ====
section
/-! DEFINITION. The four bus transactions and the instructions: one constructor of `Instr` for each row of
spec/opcode_table.json. The patterns of the table are over the completed byte (30_encoding.md R85), so an
instruction is a completed command byte, a completed data byte, or a read (log 1). -/

namespace Sys2Proof

/-- A bus transaction as the host issues it (00_scope.md R3, 30_encoding.md R80). -/
inductive Transaction where
  | writeCommand (b : Byte)
  | writeData (b : Byte)
  | readCommand
  | readData
  deriving DecidableEq, Repr

/-- The instructions, with every operand bit of the encoding, the ignored bits `x` of a write among them
(30_encoding.md R82, R86). -/
inductive Instr where
  /-- Set DDRAM address, 43_commands.md R151. -/
  | setDdramAddr (a : BitVec 7)
  /-- Set CGRAM address, R152. -/
  | setCgramAddr (a : BitVec 6)
  /-- Function set, R153: DL is bit 4, N is bit 3, `x` the ignored bits 2 to 0. -/
  | functionSet (dl n : Bool) (x : BitVec 3)
  /-- Cursor/display shift, R154: S/C is bit 3, R/L is bit 2, `x` the ignored bits 1 and 0. -/
  | cursorShift (sc rl : Bool) (x : BitVec 2)
  /-- Display on/off control, R155: D, C, B are bits 2, 1, 0. -/
  | displayControl (d c b : Bool)
  /-- Entry mode set, R156: I/D is bit 1, S is bit 0. -/
  | entryModeSet (id s : Bool)
  /-- Return home, R157: `x` is the ignored bit 0. -/
  | returnHome (x : Bool)
  /-- Clear display, R158. -/
  | clearDisplay
  /-- The command byte 0x00, R159. -/
  | nop
  /-- A completed data byte, 44_data_access.md R170. -/
  | wrData (d : Byte)
  /-- `readCommand`, 42_bus_transfer.md R138. -/
  | rdCmd
  /-- `readData`, R139. -/
  | rdData
  deriving DecidableEq, Repr

end Sys2Proof
end

