-- ==== Sys2Proof/Config.lean ====
section
/-! DEFINITION. The construction argument of the core (00_scope.md R6) and the model's one free value,
the contents of the character ROM. A configuration is plain data and is carried in State, so that every
statement about every state is a statement about every configuration (log 4). -/

namespace Sys2Proof

/-- `controllerDuty`: the number of common lines multiplexed, 8, 11 or 16 (00_scope.md R6). -/
inductive Duty where
  | duty8
  | duty11
  | duty16
  deriving DecidableEq, Repr

/-- `LOWCODE`: what is drawn for the codes 0x08 to 0x1F (41_character_memory.md R121). -/
inductive LowCode where
  | blank
  | mirror
  deriving DecidableEq, Repr

/-- `STEP_FLIP`: which line bit the two-line wrap inverts (20_memory.md R64). -/
inductive StepFlip where
  | pre
  | post
  deriving DecidableEq, Repr

/-- `REDRAW_ORDER`: the order in which a full redraw visits the cells (41_character_memory.md R124). -/
inductive RedrawOrder where
  | ascending
  | descending
  deriving DecidableEq, Repr

/-- The configuration, "supplied once at construction and immutable thereafter" (00_scope.md R6). -/
structure Config where
  /-- `controllerDuty`. -/
  duty : Duty
  /-- `FRAME_LEN`. -/
  frameLen : Nat
  /-- `FRAME_RESET`: the contents of FRAME after construction (70 R204). -/
  frameReset : List FrameWord
  /-- `FONT`: element `code - 0x20` is the glyph of `code`, a list of `FONT_ROWS` rows (41 R120). -/
  font : List (List (BitVec 5))
  lowCode : LowCode
  stepFlip : StepFlip
  redrawOrder : RedrawOrder
  /-- Panel geometry carried for the renderer and read by no rule (00_scope.md R6). -/
  glassLines : Nat
  charsPerLine : Nat
  dotWidth : Nat
  dotHeight : Nat
  deriving DecidableEq, Repr

/-- `FONT_ROWS`: 8 rows for duty 8 and 16, 11 rows for duty 11 (00_scope.md section 5, D7). -/
def Duty.fontRows : Duty → Nat
  | .duty8 => 8
  | .duty11 => 11
  | .duty16 => 8

/-- The legal values of `controllerDuty`, read from the number the host gives (60_exceptions.md R183). -/
def Duty.ofNumber (n : Nat) : Option Duty :=
  if n = 8 then some .duty8
  else if n = 11 then some .duty11
  else if n = 16 then some .duty16
  else none

/-- The contents of the character ROM, row `r` of code `c`: a FREE VALUE, the spec gives no font
(41 R120, 93 U15; log 5). -/
opaque Config.fontRom : Nat → Nat → BitVec 5

/-- A ROM of the whole range 0x20 to 0xFF with the given rows. -/
def Config.romOf (rows : Nat) (pixels : Nat → Nat → BitVec 5) : List (List (BitVec 5)) :=
  (List.range 224).map fun k => (List.range rows).map fun r => pixels (k + 0x20) r

/-- The configuration of `State.reset`: the spec's defaults (00_scope.md section 5), duty 16 and the
geometry of the source's scenario, DESIGN CHOICE (log 4), and the free font (log 5). -/
def Config.standard : Config where
  duty := .duty16
  frameLen := 400
  frameReset := List.replicate 400 0
  font := Config.romOf 8 Config.fontRom
  lowCode := .blank
  stepFlip := .pre
  redrawOrder := .ascending
  glassLines := 2
  charsPerLine := 20
  dotWidth := 5
  dotHeight := 8

end Sys2Proof
end

