-- ==== Sys2Proof/WellFormed.lean ====
section
/-! DEFINITION. What a construction argument must satisfy (60_exceptions.md R183), one named check each,
and well-formedness of instructions. -/

namespace Sys2Proof

/-- `FRAME_LEN` is from 200 to 400 (R183, D6). -/
def Config.frameLenOk (c : Config) : Bool := 200 ≤ c.frameLen && c.frameLen ≤ 400

/-- `FRAME_RESET` has `FRAME_LEN` words (R183, D6). -/
def Config.frameResetOk (c : Config) : Bool := c.frameReset.length == c.frameLen

/-- `FONT` is defined on all of 0x20 to 0xFF (R183, D7). -/
def Config.fontCodesOk (c : Config) : Bool := c.font.length == 224

/-- Every glyph of `FONT` has `FONT_ROWS` rows (R183, D7). -/
def Config.fontRowsOk (c : Config) : Bool := c.font.all fun g => g.length == c.duty.fontRows

/-- A well-formed configuration; any other is a ConstructionFailure (R183). The fourth condition of R183,
the duty, is the type `Duty` and the function `Duty.ofNumber`. -/
def Config.wf (c : Config) : Bool :=
  c.frameLenOk && c.frameResetOk && c.fontCodesOk && c.fontRowsOk

/-- Every instruction is well formed: each operand's type is exactly its field of the encoding, and no
command byte is illegal (30_encoding.md R86). One arm per constructor, so that a new one is looked at. -/
def Instr.wf : Instr → Bool
  | .setDdramAddr _ => true
  | .setCgramAddr _ => true
  | .functionSet _ _ _ => true
  | .cursorShift _ _ _ => true
  | .displayControl _ _ _ => true
  | .entryModeSet _ _ => true
  | .returnHome _ => true
  | .clearDisplay => true
  | .nop => true
  | .wrData _ => true
  | .rdCmd => true
  | .rdData => true

end Sys2Proof
end

