-- ==== Sys2Proof/Decode.lean ====
section
/-! DEFINITION. The decoder (43_commands.md R150; 30_encoding.md R80, R85), total on every transaction word
and, on bytes, rejecting by name; and after it the encoder (30_encoding.md R82). -/

namespace Sys2Proof

/-- Why bytes are not a transaction word. -/
inductive DecodeError where
  /-- Fewer than the two bytes that hold the ten bits. -/
  | tooFewBytes
  /-- A bit above the ten of the transaction word is set. -/
  | notATransactionWord
  deriving DecidableEq, Repr

/-- The kind and the byte of a transaction word (30_encoding.md R80); a read carries no byte in. -/
def Transaction.ofWord (w : BusWord) : Transaction :=
  match w.getLsbD 9, w.getLsbD 8 with
  | false, false => .writeCommand (w.extractLsb' 0 8)
  | false, true => .readCommand
  | true, false => .writeData (w.extractLsb' 0 8)
  | true, true => .readData

/-- Command decode by the highest set bit (43_commands.md R150). -/
def decodeCommand (b : Byte) : Instr :=
  if b.getLsbD 7 then .setDdramAddr (b.extractLsb' 0 7)
  else if b.getLsbD 6 then .setCgramAddr (b.extractLsb' 0 6)
  else if b.getLsbD 5 then .functionSet (b.getLsbD 4) (b.getLsbD 3) (b.extractLsb' 0 3)
  else if b.getLsbD 4 then .cursorShift (b.getLsbD 3) (b.getLsbD 2) (b.extractLsb' 0 2)
  else if b.getLsbD 3 then .displayControl (b.getLsbD 2) (b.getLsbD 1) (b.getLsbD 0)
  else if b.getLsbD 2 then .entryModeSet (b.getLsbD 1) (b.getLsbD 0)
  else if b.getLsbD 1 then .returnHome (b.getLsbD 0)
  else if b.getLsbD 0 then .clearDisplay
  else .nop

/-- The instruction of a transaction whose byte is complete (30_encoding.md R85, R87). -/
def decodeTransaction : Transaction → Instr
  | .writeCommand b => decodeCommand b
  | .writeData b => .wrData b
  | .readCommand => .rdCmd
  | .readData => .rdData

/-- The instruction of a transaction word: every word has one (30_encoding.md R85, R86). -/
def decodeWord (w : BusWord) : Instr := decodeTransaction (Transaction.ofWord w)

/-- The decoder on bytes: the ten bits of the word, the low byte first (DESIGN CHOICE, log 14). -/
def decodeBytes : List (BitVec 8) → Except DecodeError Instr
  | lo :: hi :: _ =>
    if hi.toNat < 4 then .ok (decodeWord (hi.extractLsb' 0 2 ++ lo))
    else .error .notATransactionWord
  | _ => .error .tooFewBytes

/-- The instruction the decoder reads from the table's bit numbering (bit 0 is `d[0]`, bit 9 is `rs`). -/
def decodeTableWord (nbits w : Nat) : Option Instr :=
  let v := w % 2 ^ nbits
  if v / 2 ^ 16 = 0 then
    match decodeBytes [BitVec.ofNat 8 v, BitVec.ofNat 8 (v / 256)] with
    | .ok i => some i
    | .error _ => none
  else none

/-- The encoder: the transaction word of an instruction (30_encoding.md R80, R82). A read carries no byte
in; its `d` is written as 0 (D28). -/
def encode : Instr → BusWord
  | .setDdramAddr a => 0b001#3 ++ a
  | .setCgramAddr a => 0b0001#4 ++ a
  | .functionSet dl n x => 0b00001#5 ++ (BitVec.ofBool dl ++ (BitVec.ofBool n ++ x))
  | .cursorShift sc rl x => 0b000001#6 ++ (BitVec.ofBool sc ++ (BitVec.ofBool rl ++ x))
  | .displayControl d c b => 0b0000001#7 ++ (BitVec.ofBool d ++ (BitVec.ofBool c ++ BitVec.ofBool b))
  | .entryModeSet id s => 0b00000001#8 ++ (BitVec.ofBool id ++ BitVec.ofBool s)
  | .returnHome x => 0b000000001#9 ++ BitVec.ofBool x
  | .clearDisplay => 0b0000000001#10
  | .nop => 0b0000000000#10
  | .wrData d => 0b10#2 ++ d
  | .rdCmd => 0b0100000000#10
  | .rdData => 0b1100000000#10

/-- The transaction word of a transaction (30_encoding.md R80). -/
def Transaction.word : Transaction → BusWord
  | .writeCommand b => 0b00#2 ++ b
  | .writeData b => 0b10#2 ++ b
  | .readCommand => 0b0100000000#10
  | .readData => 0b1100000000#10

/-- The mnemonic of an instruction's row in opcode_table.json. -/
def Instr.mnemonic : Instr → String
  | .setDdramAddr _ => "SETDDRAMADDR"
  | .setCgramAddr _ => "SETCGRAMADDR"
  | .functionSet _ _ _ => "FUNCTIONSET"
  | .cursorShift _ _ _ => "CURSORSHIFT"
  | .displayControl _ _ _ => "DISPLAYCONTROL"
  | .entryModeSet _ _ => "ENTRYMODESET"
  | .returnHome _ => "RETURNHOME"
  | .clearDisplay => "CLEARDISPLAY"
  | .nop => "NOP"
  | .wrData _ => "WRDATA"
  | .rdCmd => "RDCMD"
  | .rdData => "RDDATA"

/-- One row of the opcode map: a word `w` is of the row when `w &&& mask = pattern`. -/
structure OpcodeRow where
  mnemonic : String
  mask : BusWord
  pattern : BusWord
  deriving DecidableEq, Repr

/-- The twelve rows of opcode_table.json (30_encoding.md R85). -/
def opcodeRows : List OpcodeRow :=
  [⟨"SETDDRAMADDR", 0x380, 0x080⟩, ⟨"SETCGRAMADDR", 0x3C0, 0x040⟩, ⟨"FUNCTIONSET", 0x3E0, 0x020⟩,
   ⟨"CURSORSHIFT", 0x3F0, 0x010⟩, ⟨"DISPLAYCONTROL", 0x3F8, 0x008⟩, ⟨"ENTRYMODESET", 0x3FC, 0x004⟩,
   ⟨"RETURNHOME", 0x3FE, 0x002⟩, ⟨"CLEARDISPLAY", 0x3FF, 0x001⟩, ⟨"NOP", 0x3FF, 0x000⟩,
   ⟨"WRDATA", 0x300, 0x200⟩, ⟨"RDCMD", 0x300, 0x100⟩, ⟨"RDDATA", 0x300, 0x300⟩]

/-- Whether a word is of a row. -/
def OpcodeRow.holds (r : OpcodeRow) (w : BusWord) : Bool := w &&& r.mask == r.pattern

end Sys2Proof
end

