-- ==== Sys2Proof/Machine/State.lean ====
section
/-! DEFINITION. The state of the core (10_state.md R10), the reasons a step can stop, and the state after
construction (70_reset_and_hazards.md R200 to R204). -/

namespace Sys2Proof.Machine

/-- `bitMode`, the transfer width (10_state.md R16). -/
inductive BitMode where
  | four
  | eight
  deriving DecidableEq, Repr

/-- `cm`, the cursor movement: `inc` is `+1`, `dec` is `-1` (10_state.md R21). -/
inductive Movement where
  | inc
  | dec
  deriving DecidableEq, Repr

/-- A memory of byte cells: the listed cells, addresses strictly rising, none equal to what an unlisted
address reads as (`Memory.wf` in Machine/Memory.lean). -/
abbrev Memory := List Host.Cell

/-- What the outside asks of the core (00_scope.md R3): a bus transaction of the host, or a snapshot by the
rendering collaborator. -/
inductive Request where
  | transaction (t : Transaction)
  | snapshot
  deriving DecidableEq, Repr

/-- What the core gives back (00_scope.md R5): exactly these three things leave it. -/
inductive Reply where
  /-- The byte returned by `readCommand`. -/
  | commandByte (b : Byte)
  /-- The byte returned by `readData`. -/
  | dataByte (b : Byte)
  /-- The words returned by `snapshotFramebuffer`. -/
  | frameWords (ws : List FrameWord)
  deriving DecidableEq, Repr

/-- The state of one core. -/
structure State where
  /-- The construction argument, never written after construction (70 R205; log 4). -/
  cfg : Config
  /-- AC, the address counter (10 R11). -/
  ac : Address
  /-- DR, the data register (10 R12). -/
  dr : Byte
  /-- IR, the instruction register (10 R14). -/
  ir : Byte
  /-- false: data writes go to DDRAM; true: to CGRAM (10 R15). -/
  cgramMode : Bool
  bitMode : BitMode
  cm : Movement
  /-- Dead state, kept (10 R22). -/
  autoScrollMode : Bool
  /-- HHN, the nibble phase: true, the next Four-bit transfer carries the high nibble (10 R17). -/
  hhn : Bool
  /-- DDRAM, 80 cells (10 R31). -/
  ddram : Memory
  /-- CGRAM, 64 cells (10 R32). -/
  cgram : Memory
  /-- 0 to 39 (10 R28). -/
  cursorX : Nat
  /-- 0 or 1 (10 R28). -/
  cursorY : BitVec 1
  /-- 0 to 39 (10 R29). -/
  scrollOffset : Nat
  twoLineMode : Bool
  displayOn : Bool
  cursorOn : Bool
  blinkOn : Bool
  /-- FRAME, `cfg.frameLen` words, word `n` for segment column `n` (10 R34, R38). -/
  frame : List FrameWord
  /-- The model's own: requests from outside not yet taken, oldest first (log 2). -/
  pending : List Request
  /-- The model's own: what the core has given back, oldest first (log 3). -/
  replies : List Reply
  deriving DecidableEq, Repr

/-- The errors that are propagated to the caller (60_exceptions.md R180, R188). -/
inductive Fault where
  /-- E4, IndexOutOfRange: a frame store to column `column`, which is `FRAME_LEN` or more. Raised by
  `storeColumn` and so by every rendering (R184). Safe: the spec gives a faulted core no further meaning;
  unreachable when the configuration is well formed (R185). -/
  | indexOutOfRange (column : Nat)
  /-- E3, ConstructionFailure: raised by `construct` alone, for a bad geometry (R183). Safe: there is no
  core then. -/
  | constructionFailure
  deriving DecidableEq, Repr

/-- The refusals. -/
inductive Refusal where
  /-- An instruction that has no meaning in the model, by its mnemonic. Raised by an arm of `exec`; safe.
  No arm raises it: every instruction has its meaning. -/
  | notModelled (mnemonic : String)
  deriving DecidableEq, Repr

/-- What a transaction, an operation or a step answers. -/
abbrev Result := Host.Outcome State Fault Refusal

/-- The state after construction (70 R201 to R204) with the free inputs of the reset state as arguments:
the configuration, `DR`, `IR`, and the contents of CGRAM, which the spec leaves open (R201, R203). -/
def State.resetWith (c : Config) (dr ir : Byte) (cgram : Memory) : State where
  cfg := c
  ac := 0
  dr := dr
  ir := ir
  cgramMode := false
  bitMode := .eight
  cm := .inc
  autoScrollMode := false
  hhn := true
  ddram := []
  cgram := cgram
  cursorX := 0
  cursorY := 0
  scrollOffset := 0
  twoLineMode := false
  displayOn := false
  cursorOn := false
  blinkOn := false
  frame := c.frameReset
  pending := []
  replies := []

/-- The machine right after reset: the standard configuration, and for the three open inputs the values
of logs 6 and 7 (DESIGN CHOICE: DR = IR = 0, no CGRAM cell listed). -/
def State.reset : State := State.resetWith Config.standard 0 0 []

end Sys2Proof.Machine
end

