-- ==== Sys2Proof/Machine/Framebuffer.lean ====
section
/-! DEFINITION. The segment framebuffer: masked merge, the two store operations, the snapshot
(40_segment_framebuffer.md R100 to R106). -/

namespace Sys2Proof.Machine

/-- The logical half-line of a store, 0 or 1 (R101). -/
inductive HalfLine where
  | zero
  | one
  deriving DecidableEq, Repr

/-- `mask(h)`: the bits a store may write (R101). -/
def storeMask (d : Duty) (h : HalfLine) : FrameWord :=
  match d, h with
  | .duty16, .zero => 0x00FF
  | .duty16, .one => 0xFF00
  | .duty8, _ => 0x00FF
  | .duty11, _ => 0x07FF

/-- `shift(h)`: the bit of glyph row 0 (R101). -/
def storeShift (d : Duty) (h : HalfLine) : Nat :=
  match d, h with
  | .duty16, .one => 8
  | _, _ => 0

/-- `merge(old, desired, m)`, the masked merge (R102). -/
def merge (old desired m : FrameWord) : FrameWord := old ^^^ ((old ^^^ desired) &&& m)

/-- What a store leaves: the frame, or the column that is out of range and the frame with the columns
stored before it (R105, 60 R184, D27). -/
inductive StoreResult where
  | stored (f : List FrameWord)
  | outOfRange (column : Nat) (left : List FrameWord)
  deriving DecidableEq, Repr

/-- Go on with the frame when the store succeeded. -/
def StoreResult.andThen (r : StoreResult) (k : List FrameWord → StoreResult) : StoreResult :=
  match r with
  | .stored f => k f
  | .outOfRange column left => .outOfRange column left

/-- The word of column `n`. -/
def frameWord (f : List FrameWord) (n : Nat) : FrameWord := f.getD n 0

/-- `storeColumn(column, pixelPattern, h)`: the range check comes before the write (R104, R105). -/
def storeColumn (c : Config) (f : List FrameWord) (column : Nat) (pattern : FrameWord) (h : HalfLine) :
    StoreResult :=
  if column < c.frameLen then
    .stored (f.set column (merge (frameWord f column) pattern (storeMask c.duty h)))
  else .outOfRange column f

/-- The word `desired` of R103 for glyph column `k`: bit 4 of a row is glyph column 0 (20_memory.md R53,
D8); bits 7 to 5 of a row are not read. -/
def glyphColumn (d : Duty) (h : HalfLine) (rows : List Byte) (k : Nat) : FrameWord :=
  (List.range d.fontRows).foldl
    (fun desired r =>
      if (rows.getD r 0).getLsbD (4 - k) then desired ||| (1#16 <<< (r + storeShift d h)) else desired)
    0

/-- The columns `k` of the list, in order, of a `storeGlyphRow` (R103). -/
def storeGlyphColumns (c : Config) (base : Nat) (h : HalfLine) (rows : List Byte) :
    List Nat → List FrameWord → StoreResult
  | [], f => .stored f
  | k :: ks, f =>
    (storeColumn c f (base + k) (glyphColumn c.duty h rows k) h).andThen
      (storeGlyphColumns c base h rows ks)

/-- `storeGlyphRow(baseColumn, logicalHalfLine, rowBits)` (R103). -/
def storeGlyphRow (c : Config) (f : List FrameWord) (base : Nat) (h : HalfLine) (rows : List Byte) :
    StoreResult :=
  storeGlyphColumns c base h rows [0, 1, 2, 3, 4] f

/-- `snapshot()`: the whole frame, in ascending column order (R106). -/
def snapshot (f : List FrameWord) : List FrameWord := f

end Sys2Proof.Machine
end

