-- ==== Sys2Proof/Machine/Memory.lean ====
section
/-! DEFINITION. DDRAM and CGRAM as canonical lists of cells, and the guarded reads of 20_memory.md R54 and
R56. The guarded writes, which redraw, are in Machine/Ops.lean. -/

namespace Sys2Proof.Machine

/-- The two byte memories (20_memory.md R50). -/
inductive Space where
  | ddram
  | cgram
  deriving DecidableEq, Repr

/-- The number of cells (10_state.md R31, R32). -/
def Space.size : Space → Nat
  | .ddram => 80
  | .cgram => 64

/-- What an unlisted cell reads as: in DDRAM the space character of reset (70 R202); in CGRAM, whose
contents after reset are undefined (R203), 0x00, DESIGN CHOICE (log 7). -/
def Space.unlisted : Space → Byte
  | .ddram => 0x20
  | .cgram => 0x00

/-- The cell at address `a`. -/
def Memory.read (sp : Space) : Memory → Nat → Byte
  | [], _ => sp.unlisted
  | (b, v) :: rest, a => if a = b then v else Memory.read sp rest a

/-- The memory with `v` at address `a`, in canonical form. -/
def Memory.write (sp : Space) : Memory → Nat → Byte → Memory
  | [], a, v => if v = sp.unlisted then [] else [(a, v)]
  | (b, u) :: rest, a, v =>
    if a < b then (if v = sp.unlisted then (b, u) :: rest else (a, v) :: (b, u) :: rest)
    else if a = b then (if v = sp.unlisted then rest else (a, v) :: rest)
    else (b, u) :: Memory.write sp rest a v

/-- Every listed address is at least `lo` and below the size, addresses rise strictly, and no entry equals
what an unlisted cell reads as. -/
def Memory.wfFrom (sp : Space) : Nat → Memory → Bool
  | _, [] => true
  | lo, (a, v) :: rest =>
    decide (lo ≤ a) && decide (a < sp.size) && decide (v ≠ sp.unlisted) && Memory.wfFrom sp (a + 1) rest

/-- The canonical form of a memory. -/
def Memory.wf (sp : Space) (m : Memory) : Bool := Memory.wfFrom sp 0 m

/-- `getDDRAM(index)`, the index any integer: outside 0 to 79 it reads as the sentinel 0xFF (R54, 60 R181). -/
def getDDRAM (m : Memory) : Int → Byte
  | .ofNat i => if i < 80 then Memory.read .ddram m i else 0xFF
  | .negSucc _ => 0xFF

/-- `getCGRAM(index)`: the index is masked to 6 bits (R56). -/
def getCGRAM (m : Memory) (i : Nat) : Byte := Memory.read .cgram m (i &&& 0x3F)

/-- DDRAM after a guarded store: out of range nothing is written (R55, 60 R181). -/
def putDDRAM (m : Memory) (i : Int) (v : Byte) : Memory :=
  match i with
  | .ofNat i => if i < 80 then Memory.write .ddram m i v else m
  | .negSucc _ => m

/-- CGRAM after a store at the masked index; all 8 bits are stored (R57). -/
def putCGRAM (m : Memory) (i : Nat) (v : Byte) : Memory := Memory.write .cgram m (i &&& 0x3F) v

end Sys2Proof.Machine
end

