-- ==== Sys2Proof/Machine/Character.lean ====
section
/-! DEFINITION. The character ROM, glyph selection and rendering (41_character_memory.md R120 to R124). -/

namespace Sys2Proof.Machine

/-- `FONT[code]` for a code of 0x20 or more: element `code - 0x20` of the table (R120). -/
def romGlyph (c : Config) (code : Byte) : List Byte :=
  (c.font.getD (code.toNat - 0x20) []).map fun row => row.zeroExtend 8

/-- `cgramGlyph(g)`: rows 0 to 7 from CGRAM, 5 bits each, further rows blank (R122). -/
def cgramGlyph (c : Config) (cgram : Memory) (g : Nat) : List Byte :=
  (List.range c.duty.fontRows).map fun r =>
    if r ≤ 7 then Memory.read .cgram cgram (8 * g + r) &&& 0x1F else 0

/-- `FONT_ROWS` rows of 0. -/
def blankGlyph (c : Config) : List Byte := List.replicate c.duty.fontRows 0

/-- `glyph(code)` (R121): never raises FontLookupUnderflow (60 R182). -/
def glyph (c : Config) (cgram : Memory) (code : Byte) : List Byte :=
  if 0x20 ≤ code.toNat then romGlyph c code
  else if code.toNat ≤ 0x07 then cgramGlyph c cgram code.toNat
  else if c.lowCode = .mirror ∧ code.toNat ≤ 0x0F then cgramGlyph c cgram (code &&& 0x07).toNat
  else blankGlyph c

/-- The half-line of cell `i` (R123). -/
def cellHalfLine (twoLine : Bool) (i : Nat) : HalfLine :=
  if twoLine && decide (40 ≤ i) then .one else .zero

/-- `renderCell(i)`: the frame after cell `i` is drawn (R123). -/
def renderCell (c : Config) (twoLine : Bool) (ddram cgram : Memory) (i : Nat) (f : List FrameWord) :
    StoreResult :=
  storeGlyphRow c f (5 * (i % 40)) (cellHalfLine twoLine i) (glyph c cgram (Memory.read .ddram ddram i))

/-- The cells of the list drawn in order. -/
def renderCells (c : Config) (twoLine : Bool) (ddram cgram : Memory) :
    List Nat → List FrameWord → StoreResult
  | [], f => .stored f
  | i :: is, f => (renderCell c twoLine ddram cgram i f).andThen (renderCells c twoLine ddram cgram is)

/-- The order in which a full redraw visits the 80 cells (R124, D11). -/
def cellOrder : RedrawOrder → List Nat
  | .ascending => List.range 80
  | .descending => (List.range 80).reverse

/-- `redrawAll()` (R124). -/
def redrawAll (c : Config) (twoLine : Bool) (ddram cgram : Memory) (f : List FrameWord) : StoreResult :=
  renderCells c twoLine ddram cgram (cellOrder c.redrawOrder) f

end Sys2Proof.Machine
end

