-- ==== Sys2Proof/Machine/Flags.lean ====
section
/-! DEFINITION. The phase flag HHN and the nibble protocol (42_bus_transfer.md R135, R140). The device has
no condition codes (10_state.md R18); HHN is the one flag an operation computes. -/

namespace Sys2Proof.Machine

/-- What one transfer of a write leaves: the accumulator, the phase flag, and whether a byte is complete. -/
structure NibbleWrite where
  updated : Byte
  hhn : Bool
  complete : Bool
  deriving DecidableEq, Repr

/-- `writeNibble(incoming, acc)` (R135). -/
def writeNibble (mode : BitMode) (hhn : Bool) (incoming acc : Byte) : NibbleWrite :=
  match mode with
  | .eight => ⟨incoming, hhn, true⟩
  | .four =>
    if hhn then ⟨incoming &&& 0xF0#8, false, false⟩
    else ⟨(acc &&& 0xF0#8) ||| ((incoming &&& 0xF0#8) >>> 4), true, true⟩

/-- The byte `readNibble(v)` shows on the bus (R140, D18). -/
def readNibble (mode : BitMode) (hhn : Bool) (v : Byte) : Byte :=
  match mode with
  | .eight => v
  | .four => if hhn then v &&& 0xF0#8 else (v &&& 0x0F#8) <<< 4

/-- The phase flag after a read: toggled in Four-bit mode only (R140). -/
def phaseAfterRead (mode : BitMode) (hhn : Bool) : Bool :=
  match mode with
  | .eight => hhn
  | .four => !hhn

end Sys2Proof.Machine
end

