-- ==== Sys2Proof/Machine/Operands.lean ====
section
/-! DEFINITION. The operand forms: address translation `idx`, the address-counter step, the CGRAM advance,
and the offsets of the shift commands (20_memory.md R62 to R66, 43_commands.md R154). -/

namespace Sys2Proof.Machine

/-- `+1` or `-1` as a 7-bit addend: all arithmetic on AC is modulo 128 (10_state.md R11, D1). -/
def Movement.toAddress : Movement → Address
  | .inc => 1
  | .dec => -1

/-- `+1` or `-1` as an integer. -/
def Movement.toInt : Movement → Int
  | .inc => 1
  | .dec => -1

/-- A one-bit field that gives `+1` when set and `-1` when clear: R/L of the shift command (R154, D21) and
I/D of Entry mode set (R156). -/
def Movement.ofBit (b : Bool) : Movement := if b then .inc else .dec

/-- `idx(a)`, `addressCounterToIndex`: the linear DDRAM index of a virtual address (R62). -/
def idx (twoLine : Bool) (a : Address) : Nat :=
  let i := if twoLine && a.getLsbD 6 then (a.toNat - 0x40) + 40 else a.toNat
  if 80 ≤ i then i % 80 else i

/-- `step()`, `stepAddressCounter`: the counter after a DDRAM data write (R64). -/
def stepCounter (flip : StepFlip) (twoLine : Bool) (cm : Movement) (ac : Address) : Address :=
  let t := ac + cm.toAddress
  if twoLine then
    if 40 ≤ (t &&& 0x3F).toNat then
      let old := match flip with
        | .pre => ac
        | .post => t
      let column : Address := match cm with
        | .inc => 0
        | .dec => 39
      ((old &&& 0x40) ^^^ 0x40) ||| column
    else t
  else if 79 < t.toNat then
    match cm with
    | .inc => 0
    | .dec => 79
  else t

/-- The counter after a CGRAM data write: masked to 6 bits, no line wrap (R66, D23). -/
def advanceCgram (cm : Movement) (ac : Address) : Address := (ac + cm.toAddress) &&& 0x3F

/-- The CGRAM cell a counter addresses (R61, 44 R172). -/
def cgramIndex (ac : Address) : Nat := (ac &&& 0x3F).toNat

/-- `scrollOffset` plus an offset, wrapped into 0 to 39 (41 R112, D31). -/
def wrapScroll (offset : Nat) (o : Movement) : Nat := (((offset : Int) + o.toInt) % 40).toNat

/-- `cursorX` and `cursorY` after `scrollCursor` (41 R113): `cursorY` toggles on each wrap. -/
def moveCursor (x : Nat) (y : BitVec 1) (o : Movement) : Nat × BitVec 1 :=
  let nx : Int := (x : Int) + o.toInt
  if nx < 0 then ((nx + 40).toNat, y ^^^ 1)
  else if 40 ≤ nx then ((nx - 40).toNat, y ^^^ 1)
  else (nx.toNat, y)

end Sys2Proof.Machine
end

