-- ==== Sys2Proof/Machine/Ops.lean ====
section
/-! DEFINITION. The named operations over the state: the propagated error, the guarded stores with their
redraw, the mode and position operations of the CharacterMemory, the transfer of a transaction's byte, and
construction. -/

namespace Sys2Proof.Machine

/-- The one way an error leaves the core: it goes to the immediate caller. Nothing is saved, there is no
mode, no vector and no return (60_exceptions.md R188, R189). -/
def raiseError (e : Fault) : Result := .fault e

/-- Go on with the next state of an operation that completed. -/
def andThen (o : Result) (k : State → Result) : Result :=
  match o with
  | .next s => k s
  | .fault e => .fault e
  | .refused r => .refused r

/-- Take over the frame a store left, or propagate its IndexOutOfRange (60 R184). -/
def takeFrame (s : State) (r : StoreResult) : Result :=
  match r with
  | .stored f => .next { s with frame := f }
  | .outOfRange column _ => raiseError (.indexOutOfRange column)

/-- `setDDRAM(index, value)`: store and render the cell; out of range nothing at all (20_memory.md R55). -/
def setDDRAM (s : State) (i : Int) (v : Byte) : Result :=
  match i with
  | .ofNat i =>
    if i < 80 then
      let m := putDDRAM s.ddram i v
      takeFrame { s with ddram := m } (renderCell s.cfg s.twoLineMode m s.cgram i s.frame)
    else .next s
  | .negSucc _ => .next s

/-- `setCGRAM(index, value)`: store at the masked index and redraw everything (R57). -/
def setCGRAM (s : State) (i : Nat) (v : Byte) : Result :=
  let m := putCGRAM s.cgram i v
  takeFrame { s with cgram := m } (redrawAll s.cfg s.twoLineMode s.ddram m s.frame)

/-- `setLineCount(n)`: no redraw (41_character_memory.md R110, D24). -/
def setLineCount (s : State) (n : Nat) : State := { s with twoLineMode := decide (n = 2) }

/-- `setDisplayMode(displayOn, cursorOn, blinkOn)`: no redraw (R111). -/
def setDisplayMode (s : State) (d c b : Bool) : State :=
  { s with displayOn := d, cursorOn := c, blinkOn := b }

/-- `scrollDisplay(offset)`: the offset wraps in 0 to 39, then a full redraw (R112). -/
def scrollDisplay (s : State) (o : Movement) : Result :=
  takeFrame { s with scrollOffset := wrapScroll s.scrollOffset o }
    (redrawAll s.cfg s.twoLineMode s.ddram s.cgram s.frame)

/-- `scrollCursor(offset)`: no redraw (R113). -/
def scrollCursor (s : State) (o : Movement) : State :=
  { s with
    cursorX := (moveCursor s.cursorX s.cursorY o).1
    cursorY := (moveCursor s.cursorX s.cursorY o).2 }

/-- `cursorHome()`: no redraw (R114). -/
def cursorHome (s : State) : State := { s with cursorX := 0, cursorY := 0, scrollOffset := 0 }

/-- `setDDRAM(i, 0x20)` for each cell of the list in order. -/
def fillCells : List Nat → State → Result
  | [], s => .next s
  | i :: is, s => andThen (setDDRAM s i 0x20) (fillCells is)

/-- `clearDisplay()`: 80 stores of the space character, then `cursorHome()` (R115). -/
def clearMemory (s : State) : Result :=
  andThen (fillCells (List.range 80) s) fun t => .next (cursorHome t)

/-- DDRAM-addressing mode at the counter's address: `cgramMode` false and the prefetch into DR
(43_commands.md R151; 44_data_access.md R171, D22). -/
def enterDdramMode (s : State) : State :=
  { s with cgramMode := false, dr := getDDRAM s.ddram (idx s.twoLineMode s.ac) }

/-- A completed data byte to DDRAM: store, render, step, re-enter DDRAM mode (44 R171). -/
def ddramDataWrite (v : Byte) (s : State) : Result :=
  andThen (setDDRAM s (idx s.twoLineMode s.ac) v) fun t =>
    .next (enterDdramMode { t with ac := stepCounter t.cfg.stepFlip t.twoLineMode t.cm t.ac })

/-- A completed data byte to CGRAM: store, redraw, advance, re-enter CGRAM mode (44 R172). -/
def cgramDataWrite (v : Byte) (s : State) : Result :=
  andThen (setCGRAM s (cgramIndex s.ac) v) fun t =>
    .next { t with ac := advanceCgram t.cm t.ac, cgramMode := true }

/-- The value `readCommand` reads: 0 in bit 7, AC in bits 6 to 0 (42 R138, D16). -/
def statusByte (s : State) : Byte := s.ac.zeroExtend 8

/-- One read transfer of the value `v`: the byte goes to the host and the phase moves on (42 R140). -/
def giveByte (s : State) (v : Byte) (wrap : Byte → Reply) : State :=
  { s with
    hhn := phaseAfterRead s.bitMode s.hhn
    replies := s.replies ++ [wrap (readNibble s.bitMode s.hhn v)] }

/-- One transfer of a command byte: IR is its accumulator (42 R136, D15). -/
def latchCommand (s : State) (b : Byte) : State :=
  let n := writeNibble s.bitMode s.hhn b s.ir
  { s with ir := n.updated, hhn := n.hhn }

/-- One transfer of a data byte: DR is its accumulator (42 R137, D15). -/
def latchData (s : State) (b : Byte) : State :=
  let n := writeNibble s.bitMode s.hhn b s.dr
  { s with dr := n.updated, hhn := n.hhn }

/-- The bus side of a transaction: the state after the transfer, and the transaction with its completed
byte, or none when a Four-bit write has transferred only its high nibble (42 R135 to R139, R141). The
transfer of a read is in the read's own meaning. -/
def transfer (t : Transaction) (s : State) : State × Option Transaction :=
  match t with
  | .writeCommand b =>
    (latchCommand s b,
      if (writeNibble s.bitMode s.hhn b s.ir).complete then some (.writeCommand (latchCommand s b).ir)
      else none)
  | .writeData b =>
    (latchData s b,
      if (writeNibble s.bitMode s.hhn b s.dr).complete then some (.writeData (latchData s b).dr)
      else none)
  | .readCommand => (s, some .readCommand)
  | .readData => (s, some .readData)

/-- The rendering collaborator's snapshot: the words go out, nothing else changes (40 R106). -/
def giveSnapshot (s : State) : State := { s with replies := s.replies ++ [.frameWords (snapshot s.frame)] }

/-- Construction, the only reset (70 R200): the geometry check of 60 R183, then the reset state. The free
inputs of the reset state are arguments (70 R201, R203; log 13). -/
def construct (dutyNumber : Nat) (c : Config) (dr ir : Byte) (cgram : Memory) : Result :=
  match Duty.ofNumber dutyNumber with
  | none => raiseError .constructionFailure
  | some d =>
    let c' := { c with duty := d }
    if c'.wf then .next (State.resetWith c' dr ir cgram) else raiseError .constructionFailure

end Sys2Proof.Machine
end

