-- ==== Sys2Proof/Machine/Commands.lean ====
section
/-! DEFINITION. The meanings of the nine command bytes (43_commands.md R151 to R159), each the effect of the
completed byte; the latching of the byte itself is `transfer` (log 1). -/

namespace Sys2Proof.Machine

/-- Set DDRAM address (R151). -/
def execSetDdramAddr (a : BitVec 7) (s : State) : Result :=
  .next (enterDdramMode { s with ac := a })

/-- Set CGRAM address: the 6-bit address zero-extended, no prefetch (R152). -/
def execSetCgramAddr (a : BitVec 6) (s : State) : Result :=
  .next { s with ac := a.zeroExtend 7, cgramMode := true }

/-- Function set (R153); the ignored bits have no effect (30_encoding.md R86). -/
def execFunctionSet (dl n : Bool) (_x : BitVec 3) (s : State) : Result :=
  let t := { s with bitMode := if dl then .eight else .four }
  .next { setLineCount t (if n then 2 else 1) with hhn := true }

/-- Cursor/display shift (R154): S/C set scrolls the display and moves AC without line wrap (D20); clear
moves the cursor only. -/
def execCursorShift (sc rl : Bool) (_x : BitVec 2) (s : State) : Result :=
  let o := Movement.ofBit rl
  if sc then andThen (scrollDisplay s o) fun t => .next { t with ac := t.ac + o.toAddress }
  else .next (scrollCursor s o)

/-- Display on/off control (R155). -/
def execDisplayControl (d c b : Bool) (s : State) : Result := .next (setDisplayMode s d c b)

/-- Entry mode set (R156). -/
def execEntryModeSet (id sh : Bool) (s : State) : Result :=
  .next { s with cm := Movement.ofBit id, autoScrollMode := sh }

/-- Return home (R157): no redraw, `cgramMode` and DR kept (D25). -/
def execReturnHome (_x : Bool) (s : State) : Result := .next (cursorHome { s with ac := 0 })

/-- Clear display (R158). -/
def execClearDisplay (s : State) : Result :=
  clearMemory { s with ac := 0, cm := .inc, autoScrollMode := false }

/-- The command byte 0x00: nothing (R159, D14). -/
def execNop (s : State) : Result := .next s

end Sys2Proof.Machine
end

