-- ==== Sys2Proof/Machine/Data.lean ====
section
/-! DEFINITION. The meanings of the data write and the two reads (44_data_access.md R170; 42_bus_transfer.md
R138, R139). -/

namespace Sys2Proof.Machine

/-- A completed data byte goes to CGRAM or DDRAM by `cgramMode` (R170). -/
def execWrData (d : Byte) (s : State) : Result :=
  if s.cgramMode then cgramDataWrite d s else ddramDataWrite d s

/-- `readCommand` (R138). -/
def execRdCmd (s : State) : Result := .next (giveByte s (statusByte s) .commandByte)

/-- `readData` (R139): returns DR and changes nothing but the phase (D17). -/
def execRdData (s : State) : Result := .next (giveByte s s.dr .dataByte)

end Sys2Proof.Machine
end

