-- ==== Sys2Proof/Machine/Dispatch.lean ====
section
/-! DEFINITION. One arm per instruction. -/

namespace Sys2Proof.Machine

/-- The meaning of every instruction: the effect of a completed command byte, of a completed data byte, or
of a read. -/
def exec (i : Instr) (s : State) : Host.Outcome State Fault Refusal :=
  match i with
  | .setDdramAddr a => Sys2Proof.Machine.execSetDdramAddr a s
  | .setCgramAddr a => Sys2Proof.Machine.execSetCgramAddr a s
  | .functionSet dl n x => Sys2Proof.Machine.execFunctionSet dl n x s
  | .cursorShift sc rl x => Sys2Proof.Machine.execCursorShift sc rl x s
  | .displayControl d c b => Sys2Proof.Machine.execDisplayControl d c b s
  | .entryModeSet id sh => Sys2Proof.Machine.execEntryModeSet id sh s
  | .returnHome x => Sys2Proof.Machine.execReturnHome x s
  | .clearDisplay => Sys2Proof.Machine.execClearDisplay s
  | .nop => Sys2Proof.Machine.execNop s
  | .wrData d => Sys2Proof.Machine.execWrData d s
  | .rdCmd => Sys2Proof.Machine.execRdCmd s
  | .rdData => Sys2Proof.Machine.execRdData s

end Sys2Proof.Machine
end

