-- ==== Sys2Proof/Machine/Fetch.lean ====
section
/-! DEFINITION. Where a step takes its transaction from: the queue of requests (log 2). -/

namespace Sys2Proof.Machine

/-- The oldest pending request, taken off the queue. -/
def takeRequest (s : State) : State × Option Request :=
  match s.pending with
  | [] => (s, none)
  | r :: rest => ({ s with pending := rest }, some r)

/-- `s` such that the next step completes the byte of `t` and runs it. In Eight-bit mode, and for a read,
`t` is put before the queue. In Four-bit mode a write's high nibble is put where its own transfer leaves it
(the accumulator, with the phase at the low nibble) and the transfer of the low nibble before the queue. -/
def placeNext (s : State) (t : Transaction) : State :=
  match s.bitMode, t with
  | .four, .writeCommand b =>
    { s with
      ir := b &&& 0xF0#8, hhn := false
      pending := .transaction (.writeCommand (b <<< 4)) :: s.pending }
  | .four, .writeData b =>
    { s with
      dr := b &&& 0xF0#8, hhn := false
      pending := .transaction (.writeData (b <<< 4)) :: s.pending }
  | _, _ => { s with pending := .transaction t :: s.pending }

end Sys2Proof.Machine
end

