-- ==== Sys2Proof/Machine/Step.lean ====
section
/-! DEFINITION. One step: the next request from outside, as one atomic transition (00_scope.md R4;
20_memory.md R67). -/

namespace Sys2Proof.Machine

/-- One transaction: transfer its byte and, when the byte is complete, run the instruction it decodes to
(42_bus_transfer.md R136 to R139). -/
def runTransaction (t : Transaction) (s : State) : Host.Outcome State Fault Refusal :=
  match transfer t s with
  | (s', none) => .next s'
  | (s', some complete) => exec (decodeTransaction complete) s'

/-- One step. Without a request the core does nothing, for it never acts on its own (00_scope.md R3). -/
def step (s : State) : Host.Outcome State Fault Refusal :=
  match takeRequest s with
  | (s', none) => .next s'
  | (s', some .snapshot) => .next (giveSnapshot s')
  | (s', some (.transaction t)) => runTransaction t s'

/-- `s` with the transaction of the table word `w` as the next request, so that the next step runs its
instruction; in Four-bit mode the transfer of a write's high nibble is put behind it (log 2). -/
def State.withFetchWord (s : State) (nbits w : Nat) : State :=
  placeNext s (Transaction.ofWord (BitVec.ofNat 10 (w % 2 ^ nbits)))

end Sys2Proof.Machine
end

