-- ==== Sys2Proof/Safety.lean ====
section
/-! DEFINITION. What a legal state of the core is, the spec's own tables of translation and stepping, and the
relations between states that claims use. -/

namespace Sys2Proof.Machine

/-- A legal state of a successfully constructed core: the configuration is well formed (60_exceptions.md
R183), the memories have their canonical form, FRAME has FRAME_LEN words (10_state.md R34), and the
display-position registers are in range (R28, R29). -/
structure State.Legal (s : State) : Prop where
  cfg : s.cfg.wf = true
  ddram : Memory.wf .ddram s.ddram = true
  cgram : Memory.wf .cgram s.cgram = true
  frame : s.frame.length = s.cfg.frameLen
  cursorX : s.cursorX < 40
  scrollOffset : s.scrollOffset < 40

/-- `k` steps, stopping at the first fault or refusal: what `Host.Core.run` does with this core. -/
def runSteps : Nat → State → Result
  | 0, s => .next s
  | k + 1, s => andThen (step s) (runSteps k)

/-- The bus transactions as requests, in order. -/
def requests (ts : List Transaction) : List Request := ts.map Request.transaction

/-- The DDRAM cell of a virtual address, as the address map of 20_memory.md R60 tabulates it. -/
def tableCell (twoLine : Bool) (a : Nat) : Nat :=
  if twoLine then if a < 0x40 then a else if a < 0x68 then a - 24 else a - 104
  else if a < 80 then a else a - 80

/-- The counter after a step, as 20_memory.md R65 tabulates it, for both values of STEP_FLIP. -/
def tableStep (flip : StepFlip) (twoLine : Bool) (cm : Movement) (a : Nat) : Nat :=
  match twoLine, cm with
  | true, .inc =>
    if a < 0x27 then a + 1 else if a < 0x40 then 0x40 else if a < 0x67 then a + 1 else 0
  | true, .dec =>
    if a = 0 then (match flip with
      | .pre => 0x67
      | .post => 0x27)
    else if a ≤ 0x28 then a - 1
    else if a < 0x40 then 0x67
    else if a = 0x40 then (match flip with
      | .pre => 0x27
      | .post => 0x67)
    else if a ≤ 0x68 then a - 1
    else 0x27
  | false, .inc => if a < 79 then a + 1 else 0
  | false, .dec => if a = 0 then 79 else if a ≤ 80 then a - 1 else 79

/-- The valid addresses: in two-line mode the two bands, in one-line mode 0 to 79 (10_state.md R11,
20_memory.md R60). -/
def inBand (twoLine : Bool) (a : Address) : Bool :=
  if twoLine then decide (a.toNat < 40) || (decide (64 ≤ a.toNat) && decide (a.toNat < 104))
  else decide (a.toNat < 80)

/-- Bit `b` of frame word `n`. -/
def framePixel (f : List FrameWord) (n b : Nat) : Bool := (frameWord f n).getLsbD b

/-- Row `r`, glyph column `k` counted from the left, of the glyph that cell `i` holds (20_memory.md R53,
41 R121). -/
def cellPixel (s : State) (i r k : Nat) : Bool :=
  ((glyph s.cfg s.cgram (Memory.read .ddram s.ddram i)).getD r 0).getLsbD (4 - k)

/-- The first frame bit of the rows of cell `i`: 8 for cells 40 to 79 with duty 16 in two-line mode, else 0
(20_memory.md R53, 41 R123). -/
def rowBase (d : Duty) (twoLine : Bool) (i : Nat) : Nat :=
  if d = .duty16 ∧ twoLine = true ∧ 40 ≤ i then 8 else 0

/-- Whether bit `b` of frame word `n` is one of the bits cell `i` draws (20_memory.md R61, 40 R101). -/
def cellOwns (d : Duty) (twoLine : Bool) (i n b : Nat) : Bool :=
  decide (n / 5 = i % 40) && decide (rowBase d twoLine i ≤ b) &&
    decide (b < rowBase d twoLine i + d.fontRows)

/-- The bits of the frame that any store of the core can write: columns 0 to 199, and the low 8, 11 or 16
bits (20_memory.md R61, 40 R100). -/
def drawable (d : Duty) (n b : Nat) : Bool :=
  decide (n < 200) && decide (b < match d with
    | .duty8 => 8
    | .duty11 => 11
    | .duty16 => 16)

/-- The states that agree in everything but the display flags, the cursor, the scroll offset and the
auto-scroll flag, which no rule reads into an output (10_state.md R22, R27, R30). -/
def State.sameButUnobserved (s t : State) : Prop :=
  t = { s with
        displayOn := t.displayOn, cursorOn := t.cursorOn, blinkOn := t.blinkOn
        cursorX := t.cursorX, cursorY := t.cursorY, scrollOffset := t.scrollOffset
        autoScrollMode := t.autoScrollMode }

/-- The states that agree in everything but CGRAM and FRAME. -/
def State.sameButGlyphs (s t : State) : Prop :=
  t = { s with cgram := t.cgram, frame := t.frame }

/-- A whole command byte waits at the head of the queue of an Eight-bit core. -/
def State.wholeCommand (s : State) (b : Byte) (q : List Request) : Prop :=
  s.bitMode = .eight ∧ s.pending = .transaction (.writeCommand b) :: q

/-- The instructions that redraw all 80 cells in this state: a display scroll, and a data write to CGRAM
(20_memory.md R70). -/
def redraws (i : Instr) (s : State) : Bool :=
  match i with
  | .cursorShift sc _ _ => sc
  | .wrData _ => s.cgramMode
  | _ => false

/-- Both results are next states in the relation, or the same fault, or the same refusal. -/
def bothAnswer (rel : State → State → Prop) (r r' : Result) : Prop :=
  match r, r' with
  | .next s, .next t => rel s t
  | .fault e, .fault e' => e = e'
  | .refused x, .refused y => x = y
  | _, _ => False

end Sys2Proof.Machine
end

