-- ==== Sys2Proof/Certificates/Slice0/Obligations.lean ====
section
/-! DEFINITION. The statements for the provers. -/

open Sys2Proof Sys2Proof.Machine

/-! ## Encoding -/

/-- Decoding the encoded word of any instruction gives it back, also through the byte decoder and the
table's numbering; every one of the 1024 words has one meaning, being re-encoded as it was (but that a read
carries no byte in), and is of exactly one row of the opcode map, the row of the instruction it decodes
to (30_encoding.md R80, R82, R85; `rs`, `rw` and a read's absent byte are the spec's D28, log 14). -/
def Obligations.DecodeAndEncodeAgree : Prop :=
  (∀ i : Instr, i.wf = true →
    decodeWord (encode i) = i ∧ decodeTableWord 16 (encode i).toNat = some i) ∧
  (∀ w : BusWord, encode (decodeWord w) = if w.getLsbD 8 then w &&& 0x300 else w) ∧
  ∀ w : BusWord, ∃ r ∈ opcodeRows, r.mnemonic = (decodeWord w).mnemonic ∧
    ∀ r' ∈ opcodeRows, w &&& r'.mask = r'.pattern ↔ r' = r

/-- A few words written out from the spec's encodings decode to the instructions they stand for
(30_encoding.md R82; 95_test_vectors.md conventions, S6; `rs` and `rw` are the spec's D28, log 14). -/
def Obligations.SampleWordsDecode : Prop :=
  decodeTableWord 16 0b0010000011 = some (.setDdramAddr 3) ∧
  decodeTableWord 16 0b0000111000 = some (.functionSet true true 0) ∧
  decodeTableWord 16 0b0000011100 = some (.cursorShift true true 0) ∧
  decodeTableWord 16 0b1001000001 = some (.wrData 0x41) ∧
  decodeTableWord 16 0b0100000000 = some .rdCmd ∧
  decodeTableWord 16 0b1100000000 = some .rdData

/-! ## The step and the nibble protocol -/

/-- A step takes the oldest request (the queue of requests is the model's, log 2); a read, or a write whose byte
is complete, runs the instruction its word decodes to (42_bus_transfer.md R135 to R139); the transfer moves the
phase and latches its byte, half-way values included, in IR for a command and in DR for data (the spec's
decision D15, log 9; that Eight-bit transfers leave the phase alone is its D26, log 9). -/
def Obligations.StepRunsTheDecodedTransaction : Prop :=
  ∀ (s : State) (q : List Request) (b : Byte),
    (s.pending = .transaction .readCommand :: q →
      step s = exec (decodeWord Transaction.readCommand.word) { s with pending := q }) ∧
    (s.pending = .transaction .readData :: q →
      step s = exec (decodeWord Transaction.readData.word) { s with pending := q }) ∧
    (s.pending = .transaction (.writeCommand b) :: q →
      (s.bitMode = .eight →
        step s = exec (decodeWord (Transaction.writeCommand b).word) { s with pending := q, ir := b }) ∧
      (s.bitMode = .four → s.hhn = true →
        step s = .next { s with pending := q, ir := b &&& 0xF0#8, hhn := false }) ∧
      (s.bitMode = .four → s.hhn = false →
        step s = exec (decodeWord (Transaction.writeCommand ((s.ir &&& 0xF0#8) ||| ((b &&& 0xF0#8) >>> 4))).word)
          { s with pending := q, ir := (s.ir &&& 0xF0#8) ||| ((b &&& 0xF0#8) >>> 4), hhn := true })) ∧
    (s.pending = .transaction (.writeData b) :: q →
      (s.bitMode = .eight →
        step s = exec (decodeWord (Transaction.writeData b).word) { s with pending := q, dr := b }) ∧
      (s.bitMode = .four → s.hhn = true →
        step s = .next { s with pending := q, dr := b &&& 0xF0#8, hhn := false }) ∧
      (s.bitMode = .four → s.hhn = false →
        step s = exec (decodeWord (Transaction.writeData ((s.dr &&& 0xF0#8) ||| ((b &&& 0xF0#8) >>> 4))).word)
          { s with pending := q, dr := (s.dr &&& 0xF0#8) ||| ((b &&& 0xF0#8) >>> 4), hhn := true }))

/-- The core never acts on its own: a step without a request changes nothing (the idle step is the model's
convention, log 2; 00_scope.md R3, in its section 4: "The core itself never acts on its own"). -/
def Obligations.NoRequestNoChange : Prop :=
  ∀ s : State, s.pending = [] → step s = .next s

/-- A whole command byte runs the command of its highest set bit, said by ranges of the byte, with every
operand, in the state with the byte latched in IR (43_commands.md R150). That the byte 0x00, which has no set
bit, runs the operation that does nothing is the spec's decision D14 (log 10); that IR is the latch is its D15
(log 9). -/
def Obligations.HighestSetBitSelectsTheCommand : Prop :=
  ∀ (s : State) (b : Byte) (q : List Request), s.wholeCommand b q →
    let t := { s with pending := q, ir := b }
    (0x80 ≤ b.toNat → step s = exec (.setDdramAddr (BitVec.ofNat 7 (b.toNat - 0x80))) t) ∧
    (0x40 ≤ b.toNat → b.toNat < 0x80 →
      step s = exec (.setCgramAddr (BitVec.ofNat 6 (b.toNat - 0x40))) t) ∧
    (0x20 ≤ b.toNat → b.toNat < 0x40 →
      step s = exec (.functionSet (b.getLsbD 4) (b.getLsbD 3) (BitVec.ofNat 3 (b.toNat % 8))) t) ∧
    (0x10 ≤ b.toNat → b.toNat < 0x20 →
      step s = exec (.cursorShift (b.getLsbD 3) (b.getLsbD 2) (BitVec.ofNat 2 (b.toNat % 4))) t) ∧
    (0x08 ≤ b.toNat → b.toNat < 0x10 →
      step s = exec (.displayControl (b.getLsbD 2) (b.getLsbD 1) (b.getLsbD 0)) t) ∧
    (0x04 ≤ b.toNat → b.toNat < 0x08 → step s = exec (.entryModeSet (b.getLsbD 1) (b.getLsbD 0)) t) ∧
    (0x02 ≤ b.toNat → b.toNat < 0x04 → step s = exec (.returnHome (b.getLsbD 0)) t) ∧
    (b.toNat = 0x01 → step s = exec .clearDisplay t) ∧
    (b.toNat = 0x00 → step s = exec .nop t)

/-- A snapshot gives out all FRAME_LEN words in column order and changes nothing (40 R106). -/
def Obligations.SnapshotGivesTheWholeFrame : Prop :=
  ∀ (s : State) (q : List Request), s.Legal → s.pending = .snapshot :: q →
    ∃ ws : List FrameWord,
      step s = .next { s with pending := q, replies := s.replies ++ [.frameWords ws] } ∧
      ws.length = s.cfg.frameLen ∧ ∀ n, n < s.cfg.frameLen → ws[n]? = some (frameWord s.frame n)

/-- A word placed by `withFetchWord` is run by the very next step (the model's convention, log 2). -/
def Obligations.PlacedWordRunsNext : Prop :=
  ∀ (s : State) (w : BusWord),
    step (s.withFetchWord 16 w.toNat) =
      exec (decodeWord w) (match Transaction.ofWord w with
        | .writeCommand b => { s with ir := b, hhn := s.hhn || decide (s.bitMode = .four) }
        | .writeData b => { s with dr := b, hhn := s.hhn || decide (s.bitMode = .four) }
        | .readCommand => s
        | .readData => s)

/-- In Four-bit mode every transaction, of any kind, moves the phase to its opposite; in Eight-bit mode none
touches it but a Function set, which forces the high nibble (10_state.md R17, R36, R39 (c); 42 R141;
D26). -/
def Obligations.PhaseMovesOncePerTransfer : Prop :=
  ∀ (s t : State) (tr : Transaction) (q : List Request),
    s.pending = .transaction tr :: q → step s = .next t →
    (s.bitMode = .four → t.hhn = !s.hhn) ∧
    (s.bitMode = .eight → t.hhn = s.hhn ∨
      (t.hhn = true ∧ ∃ b dl n x, tr = .writeCommand b ∧ decodeCommand b = .functionSet dl n x))

/-- Two Four-bit transfers of one kind, high then low, do what the one whole byte does: the same instruction
runs, in the same state but for the width (42_bus_transfer.md R142). -/
def Obligations.NibblePairActsAsTheWholeByte : Prop :=
  ∀ (s : State) (h l : Byte) (q : List Request), s.bitMode = .four → s.hhn = true →
    let b : Byte := (h &&& 0xF0#8) ||| ((l &&& 0xF0#8) >>> 4)
    (s.pending = requests [.writeCommand h, .writeCommand l] ++ q →
      runSteps 2 s = exec (decodeCommand b) { s with pending := q, ir := b } ∧
      step { s with bitMode := .eight, pending := requests [.writeCommand b] ++ q } =
        exec (decodeCommand b) { s with bitMode := .eight, pending := q, ir := b }) ∧
    (s.pending = requests [.writeData h, .writeData l] ++ q →
      runSteps 2 s = exec (.wrData b) { s with pending := q, dr := b } ∧
      step { s with bitMode := .eight, pending := requests [.writeData b] ++ q } =
        exec (.wrData b) { s with bitMode := .eight, pending := q, dr := b })

/-- Transfers of different kinds in one pair: the completed byte takes its high nibble from the second
kind's own accumulator, and a read in the low-phase slot completes nothing (42_bus_transfer.md R141 (b),
(d); D15). -/
def Obligations.MixedPairUsesTheSecondAccumulator : Prop :=
  ∀ (s : State) (h l : Byte) (q : List Request), s.bitMode = .four → s.hhn = true →
    (s.pending = requests [.writeCommand h, .writeData l] ++ q →
      let b : Byte := (s.dr &&& 0xF0#8) ||| ((l &&& 0xF0#8) >>> 4)
      runSteps 2 s = exec (.wrData b) { s with pending := q, ir := h &&& 0xF0#8, dr := b }) ∧
    (s.pending = requests [.writeData h, .writeCommand l] ++ q →
      let b : Byte := (s.ir &&& 0xF0#8) ||| ((l &&& 0xF0#8) >>> 4)
      runSteps 2 s = exec (decodeCommand b) { s with pending := q, dr := h &&& 0xF0#8, ir := b }) ∧
    (s.pending = requests [.writeCommand h, .readData] ++ q →
      runSteps 2 s = .next { s with
        pending := q, ir := h &&& 0xF0#8
        replies := s.replies ++ [.dataByte ((s.dr &&& 0x0F#8) <<< 4)] })

/-- Sending `CMD 0x30` three times recovers a lost phase: from any legal state the core ends in Eight-bit,
one-line mode with the phase at the high nibble (70_reset_and_hazards.md R212). -/
def Obligations.ThreeFunctionSetsRecoverThePhase : Prop :=
  ∀ (s : State) (q : List Request), s.Legal →
    s.pending = requests [.writeCommand 0x30, .writeCommand 0x30, .writeCommand 0x30] ++ q →
    ∃ t, runSteps 3 s = .next t ∧ t.bitMode = .eight ∧ t.hhn = true ∧ t.twoLineMode = false ∧
      t.pending = q ∧ t.Legal

/-- The two reads: `readCommand` shows 0 and AC, `readData` shows DR, whole in Eight-bit mode, by nibbles in
Four-bit mode; nothing changes but the phase and what went out (42_bus_transfer.md R138 to R140; the spec's
decisions D16, D17, D18 and, for the phase in Eight-bit mode, D26, log 9). -/
def Obligations.ReadsShowTheRegisters : Prop :=
  ∀ s : State,
    (s.bitMode = .eight →
      exec .rdCmd s = .next { s with replies := s.replies ++ [.commandByte (0#1 ++ s.ac)] } ∧
      exec .rdData s = .next { s with replies := s.replies ++ [.dataByte s.dr] }) ∧
    (s.bitMode = .four → s.hhn = true →
      exec .rdCmd s = .next { s with
        hhn := false, replies := s.replies ++ [.commandByte ((0#1 ++ s.ac : Byte) &&& 0xF0#8)] } ∧
      exec .rdData s = .next { s with
        hhn := false, replies := s.replies ++ [.dataByte (s.dr &&& 0xF0#8)] }) ∧
    (s.bitMode = .four → s.hhn = false →
      exec .rdCmd s = .next { s with
        hhn := true, replies := s.replies ++ [.commandByte (((0#1 ++ s.ac : Byte) &&& 0x0F#8) <<< 4)] } ∧
      exec .rdData s = .next { s with
        hhn := true, replies := s.replies ++ [.dataByte ((s.dr &&& 0x0F#8) <<< 4)] })

/-- Two Four-bit reads of one kind give the two halves of one value and leave every register, memory and the
phase as they were (42_bus_transfer.md R140; 30_encoding.md R89). That the value of `readCommand` is 0 and AC,
that `readData` has no effect but on the phase, and how `readNibble` masks are the spec's decisions D16, D17 and
D18 (log 9). -/
def Obligations.FourBitReadsRebuildTheValue : Prop :=
  ∀ (s : State) (q : List Request), s.bitMode = .four → s.hhn = true →
    (s.pending = requests [.readCommand, .readCommand] ++ q →
      ∃ x y, runSteps 2 s = .next { s with
          pending := q, replies := s.replies ++ [.commandByte x, .commandByte y] } ∧
        ((x &&& 0xF0#8) ||| (y >>> 4)) = (0#1 ++ s.ac : Byte)) ∧
    (s.pending = requests [.readData, .readData] ++ q →
      ∃ x y, runSteps 2 s = .next { s with
          pending := q, replies := s.replies ++ [.dataByte x, .dataByte y] } ∧
        ((x &&& 0xF0#8) ||| (y >>> 4)) = s.dr)

/-! ## The commands -/

/-- Set DDRAM address: AC, `cgramMode` false, and DR from the cell that the address map tabulates; nothing
else (43_commands.md R151; 20_memory.md R60, R62; that the cursor is kept is the spec's decision D30, log 10). -/
def Obligations.SetDdramAddressEffect : Prop :=
  (∀ (s : State) (a : BitVec 7), exec (.setDdramAddr a) s = .next { s with
      ac := a, cgramMode := false, dr := Memory.read .ddram s.ddram (tableCell s.twoLineMode a.toNat) }) ∧
  ∀ (s : State) (b : Byte) (q : List Request), s.wholeCommand b q → 0x80 ≤ b.toNat →
    step s = .next { s with
      pending := q, ir := b, ac := BitVec.ofNat 7 (b.toNat - 0x80), cgramMode := false
      dr := Memory.read .ddram s.ddram (tableCell s.twoLineMode (b.toNat - 0x80)) }

/-- Set CGRAM address: AC, zero-extended, and `cgramMode` true; DR and everything else kept
(43_commands.md R152; that the cursor is kept is the spec's decision D30, 10_state.md R28, log 10). -/
def Obligations.SetCgramAddressEffect : Prop :=
  (∀ (s : State) (a : BitVec 6),
    exec (.setCgramAddr a) s = .next { s with ac := 0#1 ++ a, cgramMode := true }) ∧
  ∀ (s : State) (b : Byte) (q : List Request), s.wholeCommand b q → 0x40 ≤ b.toNat → b.toNat < 0x80 →
    step s = .next { s with
      pending := q, ir := b, ac := BitVec.ofNat 7 (b.toNat - 0x40), cgramMode := true }

/-- Function set: the width from bit 4, the line count from bit 3, the phase to the high nibble; no redraw
and nothing else (43_commands.md R153; that there is no redraw and AC and DR are not recomputed is the spec's
decision D24, log 10). -/
def Obligations.FunctionSetEffect : Prop :=
  (∀ (s : State) (dl n : Bool) (x : BitVec 3), exec (.functionSet dl n x) s = .next { s with
      bitMode := if dl then .eight else .four, twoLineMode := n, hhn := true }) ∧
  ∀ (s : State) (b : Byte) (q : List Request), s.wholeCommand b q → 0x20 ≤ b.toNat → b.toNat < 0x40 →
    step s = .next { s with
      pending := q, ir := b, bitMode := if b.getLsbD 4 then .eight else .four
      twoLineMode := b.getLsbD 3, hhn := true }

/-- Cursor move: `cursorX` by one with wrap in 0 to 39, `cursorY` toggled on each wrap, and nothing else, AC
and the frame least of all (41 R113; 43 R154 with S/C clear). The polarity of R/L is the spec's decision D21,
that AC is kept its decision D20 and an inference that R154 marks, how `cursorX` wraps its D31 (log 10). -/
def Obligations.CursorMoveEffect : Prop :=
  ∀ (s : State) (x : BitVec 2), s.cursorX < 40 →
    exec (.cursorShift false true x) s = .next { s with
      cursorX := (s.cursorX + 1) % 40, cursorY := if s.cursorX = 39 then ~~~s.cursorY else s.cursorY } ∧
    exec (.cursorShift false false x) s = .next { s with
      cursorX := (s.cursorX + 39) % 40, cursorY := if s.cursorX = 0 then ~~~s.cursorY else s.cursorY }

/-- Display scroll: `scrollOffset` by one with wrap in 0 to 39, AC by one modulo 128 without line wrap, the
frame is that of a full redraw, and nothing else changes; a bit that no cell draws is kept (43_commands.md R154,
41 R112, R124; the spec's decisions D20, D21 and D31, log 10). -/
def Obligations.DisplayScrollEffect : Prop :=
  ∀ (s : State) (rl : Bool) (x : BitVec 2), s.Legal →
    ∃ f : List FrameWord, exec (.cursorShift true rl x) s = .next { s with
        scrollOffset := (s.scrollOffset + if rl then 1 else 39) % 40
        ac := BitVec.ofNat 7 (s.ac.toNat + if rl then 1 else 127), frame := f } ∧
      redrawAll s.cfg s.twoLineMode s.ddram s.cgram s.frame = .stored f ∧
      f.length = s.cfg.frameLen ∧
      ∀ n b, (∀ i, i < 80 → cellOwns s.cfg.duty s.twoLineMode i n b = false) →
        framePixel f n b = framePixel s.frame n b

/-- Display on/off control: the three flags and nothing else (43_commands.md R155, 41 R111). -/
def Obligations.DisplayControlEffect : Prop :=
  (∀ (s : State) (d c b : Bool), exec (.displayControl d c b) s =
    .next { s with displayOn := d, cursorOn := c, blinkOn := b }) ∧
  ∀ (s : State) (b : Byte) (q : List Request), s.wholeCommand b q → 0x08 ≤ b.toNat → b.toNat < 0x10 →
    step s = .next { s with
      pending := q, ir := b, displayOn := b.getLsbD 2, cursorOn := b.getLsbD 1, blinkOn := b.getLsbD 0 }

/-- Entry mode set: `cm` and `autoScrollMode` and nothing else (43_commands.md R156). -/
def Obligations.EntryModeSetEffect : Prop :=
  (∀ (s : State) (id sh : Bool), exec (.entryModeSet id sh) s =
    .next { s with cm := if id then .inc else .dec, autoScrollMode := sh }) ∧
  ∀ (s : State) (b : Byte) (q : List Request), s.wholeCommand b q → 0x04 ≤ b.toNat → b.toNat < 0x08 →
    step s = .next { s with
      pending := q, ir := b, cm := if b.getLsbD 1 then .inc else .dec, autoScrollMode := b.getLsbD 0 }

/-- Return home: AC, the cursor and the scroll offset to 0; `cgramMode`, DR, DDRAM and the frame kept
(43_commands.md R157, 41 R114; that `cgramMode` and DR are kept is the spec's D25, log 10). -/
def Obligations.ReturnHomeEffect : Prop :=
  (∀ (s : State) (x : Bool), exec (.returnHome x) s =
    .next { s with ac := 0, cursorX := 0, cursorY := 0, scrollOffset := 0 }) ∧
  ∀ (s : State) (b : Byte) (q : List Request), s.wholeCommand b q → 0x02 ≤ b.toNat → b.toNat < 0x04 →
    step s = .next { s with
      pending := q, ir := b, ac := 0, cursorX := 0, cursorY := 0, scrollOffset := 0 }

/-- Clear display: every DDRAM cell reads as the space, every cell of the frame shows the space glyph, every
bit no cell draws is kept, AC, cursor and scroll offset are 0, `cm` is `+1`, `autoScrollMode` false, and
nothing else changes (43_commands.md R158, 41 R115; that `cgramMode` and DR are kept is the spec's D25, log 10,
and bit 4 leftmost its D8, log 11). -/
def Obligations.ClearDisplayEffect : Prop :=
  ∀ s : State, s.Legal → ∃ (m : Memory) (f : List FrameWord),
    exec .clearDisplay s = .next { s with
      ac := 0, cm := .inc, autoScrollMode := false, ddram := m, frame := f
      cursorX := 0, cursorY := 0, scrollOffset := 0 } ∧
    (∀ i, i < 80 → Memory.read .ddram m i = 0x20) ∧ Memory.wf .ddram m = true ∧
    f.length = s.cfg.frameLen ∧
    (∀ i r k, i < 80 → r < s.cfg.duty.fontRows → k < 5 →
      framePixel f (5 * (i % 40) + k) (rowBase s.cfg.duty s.twoLineMode i + r) =
        ((glyph s.cfg s.cgram 0x20).getD r 0).getLsbD (4 - k)) ∧
    ∀ n b, (∀ i, i < 80 → cellOwns s.cfg.duty s.twoLineMode i n b = false) →
      framePixel f n b = framePixel s.frame n b

/-- The command byte 0x00 changes nothing but IR, which the transfer latches (43_commands.md R159; the spec's
D14, log 10; IR as the latch its D15, log 9). -/
def Obligations.NopEffect : Prop :=
  (∀ s : State, exec .nop s = .next s) ∧
  ∀ (s : State) (q : List Request), s.wholeCommand 0x00 q → step s = .next { s with pending := q, ir := 0x00 }

/-! ## Data writes -/

/-- A data byte to DDRAM: the cell of the address map is written and no other, its glyph is drawn and every
bit outside the cell kept, AC moves as the table of steps says, DR holds the byte of the cell AC now
addresses, and nothing else changes (44_data_access.md R171; 20_memory.md R55, R60, R65; 10_state.md R39 (d);
the prefetch is the spec's decision D22, the line bit its D19, both values of which are covered, that the cursor
is kept its D30 (log 10), and bit 4 leftmost its D8 (log 11)). -/
def Obligations.DdramDataWriteEffect : Prop :=
  ∀ (s : State) (d : Byte), s.Legal → s.cgramMode = false →
    let i := tableCell s.twoLineMode s.ac.toNat
    let a := BitVec.ofNat 7 (tableStep s.cfg.stepFlip s.twoLineMode s.cm s.ac.toNat)
    ∃ (m : Memory) (f : List FrameWord),
      exec (.wrData d) s = .next { s with
        ddram := m, frame := f, ac := a
        dr := Memory.read .ddram m (tableCell s.twoLineMode a.toNat) } ∧
      (∀ j, Memory.read .ddram m j = if j = i then d else Memory.read .ddram s.ddram j) ∧
      f.length = s.cfg.frameLen ∧
      (∀ r k, r < s.cfg.duty.fontRows → k < 5 →
        framePixel f (5 * (i % 40) + k) (rowBase s.cfg.duty s.twoLineMode i + r) =
          ((glyph s.cfg s.cgram d).getD r 0).getLsbD (4 - k)) ∧
      ∀ n b, cellOwns s.cfg.duty s.twoLineMode i n b = false →
        framePixel f n b = framePixel s.frame n b

/-- A data byte to CGRAM: the cell at AC modulo 64 is written and no other, AC moves by `cm` modulo 64, the
frame is that of a full redraw with the new CGRAM, DR and everything else are kept; a bit no cell draws is kept
(44_data_access.md R172; 20_memory.md R57, R66; 41 R124; the masking of AC is the spec's decision D23, that the
cursor is kept its D30, log 10). -/
def Obligations.CgramDataWriteEffect : Prop :=
  ∀ (s : State) (d : Byte), s.Legal → s.cgramMode = true →
    ∃ (m : Memory) (f : List FrameWord),
      exec (.wrData d) s = .next { s with
        cgram := m, frame := f
        ac := BitVec.ofNat 7 ((s.ac.toNat + if s.cm = .inc then 1 else 63) % 64) } ∧
      (∀ j, Memory.read .cgram m j =
        if j = s.ac.toNat % 64 then d else Memory.read .cgram s.cgram j) ∧
      redrawAll s.cfg s.twoLineMode s.ddram m s.frame = .stored f ∧
      f.length = s.cfg.frameLen ∧
      ∀ n b, (∀ i, i < 80 → cellOwns s.cfg.duty s.twoLineMode i n b = false) →
        framePixel f n b = framePixel s.frame n b

/-- Once in a valid band a data write to DDRAM leaves AC in a valid band, and in one-line mode AC is 0 to 79
after it whatever it was (20_memory.md R65). -/
def Obligations.DataWriteLeavesTheCounterInABand : Prop :=
  ∀ (s t : State) (d : Byte), s.cgramMode = false → exec (.wrData d) s = .next t →
    (s.twoLineMode = false ∨ inBand true s.ac = true) → inBand t.twoLineMode t.ac = true

/-- What is written at an address is read back there, in both widths, both line modes and both directions
(44_data_access.md R174). The transfers and the read are by the spec's decisions D15, D17, D18 and D26 (log 9). -/
def Obligations.WriteThenReadReturnsTheByte : Prop :=
  ∀ (s : State) (a : BitVec 7) (d : Byte) (q : List Request), s.Legal →
    let c : Byte := 1#1 ++ a
    (s.bitMode = .eight →
      s.pending = requests [.writeCommand c, .writeData d, .writeCommand c, .readData] ++ q →
      ∃ t, runSteps 4 s = .next t ∧ t.replies = s.replies ++ [.dataByte d] ∧ t.pending = q) ∧
    (s.bitMode = .four → s.hhn = true →
      s.pending = requests [.writeCommand c, .writeCommand (c <<< 4), .writeData d, .writeData (d <<< 4),
        .writeCommand c, .writeCommand (c <<< 4), .readData, .readData] ++ q →
      ∃ t, runSteps 8 s = .next t ∧
        t.replies = s.replies ++ [.dataByte (d &&& 0xF0#8), .dataByte (d <<< 4)] ∧ t.pending = q)

/-- Eighty data writes visit all eighty cells once: forward from address 0 in ascending order, and (with
STEP_FLIP = pre, the spec's D19, log 10, in two-line mode) backward from the last address in descending order; the
counter is back where it started (44_data_access.md R175). -/
def Obligations.EightyWritesVisitEveryCellOnce : Prop :=
  ∀ (s : State) (ds : List Byte) (q : List Request), s.Legal → s.bitMode = .eight → s.cgramMode = false →
    ds.length = 80 → s.pending = requests (ds.map .writeData) ++ q →
    (s.cm = .inc → s.ac = 0 →
      ∃ t, runSteps 80 s = .next t ∧ t.ac = 0 ∧ t.pending = q ∧
        ∀ i, i < 80 → Memory.read .ddram t.ddram i = ds.getD i 0) ∧
    (s.cm = .dec → s.ac = (if s.twoLineMode then 0x67 else 0x4F) →
      (s.twoLineMode = true → s.cfg.stepFlip = .pre) →
      ∃ t, runSteps 80 s = .next t ∧ t.ac = s.ac ∧ t.pending = q ∧
        ∀ i, i < 80 → Memory.read .ddram t.ddram (79 - i) = ds.getD i 0)

/-! ## The framebuffer and the character memory -/

/-- Every store is a masked merge: a column store replaces its word by the merge of it with the pattern, a glyph
store each of its five words by the merge of it with the column of the glyph, every other word is kept, and the
merge is the bit of the desired word under the mask, the old bit elsewhere, also in its equivalent form (40 R102
to R104; that a pattern is in the coordinates of the frame word is the spec's decision D13, log 11). -/
def Obligations.StoresAreMaskedMerges : Prop :=
  (∀ (old desired m : FrameWord) (k : Nat), (merge old desired m).getLsbD k =
    if m.getLsbD k then desired.getLsbD k else old.getLsbD k) ∧
  (∀ old desired m : FrameWord, merge old desired m = (old &&& ~~~m) ||| (desired &&& m)) ∧
  (∀ (c : Config) (f : List FrameWord) (n : Nat) (p : FrameWord) (h : HalfLine), f.length = c.frameLen →
    n < c.frameLen → ∃ f', storeColumn c f n p h = .stored f' ∧ f'.length = f.length ∧
      ∀ j, frameWord f' j =
        if j = n then merge (frameWord f n) p (storeMask c.duty h) else frameWord f j) ∧
  ∀ (c : Config) (f : List FrameWord) (base : Nat) (h : HalfLine) (rows : List Byte), f.length = c.frameLen →
    base + 5 ≤ c.frameLen → ∃ f', storeGlyphRow c f base h rows = .stored f' ∧ f'.length = f.length ∧
      ∀ j, frameWord f' j =
        if base ≤ j ∧ j < base + 5
        then merge (frameWord f j) (glyphColumn c.duty h rows (j - base)) (storeMask c.duty h)
        else frameWord f j

/-- A glyph store inside the frame: in its five columns the bits under the mask show the rows, bit 4 of a row
leftmost, and every other bit of the frame is kept. The mask is the eight or eleven bits of the duty and the
half-line, which does not enter it for duty 8 and 11 (40 R101, R103; that reading of the mask is the spec's own
inference in R101, and bit 4 leftmost its decision D8, log 11). -/
def Obligations.GlyphStoreRewritesTheBitsUnderTheMask : Prop :=
  ∀ (c : Config) (f : List FrameWord) (base : Nat) (h : HalfLine) (rows : List Byte),
    f.length = c.frameLen → base + 5 ≤ c.frameLen →
    let shift := if c.duty = .duty16 ∧ h = .one then 8 else 0
    let size := if c.duty = .duty11 then 11 else 8
    ∃ f', storeGlyphRow c f base h rows = .stored f' ∧ f'.length = f.length ∧
      (∀ b, (storeMask c.duty h).getLsbD b = (decide (shift ≤ b) && decide (b < shift + size))) ∧
      ∀ n b, framePixel f' n b =
        if base ≤ n ∧ n < base + 5 ∧ (storeMask c.duty h).getLsbD b
        then (rows.getD (b - shift) 0).getLsbD (4 - (n - base)) else framePixel f n b

/-- A column store inside the frame merges its pattern under the mask into that word and keeps every other
word; outside it fails with the column and writes nothing (40 R104, R105; the coordinates are the spec's decision
D13, log 11). -/
def Obligations.StoreColumnMergesOneWord : Prop :=
  ∀ (c : Config) (f : List FrameWord) (n : Nat) (p : FrameWord) (h : HalfLine), f.length = c.frameLen →
    (n < c.frameLen → ∃ f', storeColumn c f n p h = .stored f' ∧ f'.length = f.length ∧
      (∀ b, framePixel f' n b =
        if (storeMask c.duty h).getLsbD b then p.getLsbD b else framePixel f n b) ∧
      ∀ j, j ≠ n → frameWord f' j = frameWord f j) ∧
    (c.frameLen ≤ n → storeColumn c f n p h = .outOfRange n f)

/-- A glyph store that leaves the frame fails with IndexOutOfRange at the first column outside, which is
FRAME_LEN, or its own first column where that is beyond; the columns before it are stored, every other word is
kept. `setDDRAM` of such a cell, a data write to it as an instruction, and the step of a whole data byte that is
that write all answer that fault (60_exceptions.md R184, R188; the spec's decision D27, log 11). Only a
configuration that is not well formed has such cells (R185). -/
def Obligations.GlyphStoreFailsAtTheFirstColumnOutside : Prop :=
  (∀ (c : Config) (f : List FrameWord) (base : Nat) (h : HalfLine) (rows : List Byte),
    f.length = c.frameLen → c.frameLen < base + 5 →
    ∃ f', storeGlyphRow c f base h rows = .outOfRange (max base c.frameLen) f' ∧ f'.length = f.length ∧
      (∀ n, n < base → frameWord f' n = frameWord f n) ∧
      ∀ n, base ≤ n → n < c.frameLen → frameWord f' n =
        merge (frameWord f n) (glyphColumn c.duty h rows (n - base)) (storeMask c.duty h)) ∧
  (∀ (s : State) (i : Nat) (v : Byte), i < 80 → s.cfg.frameLen < 5 * (i % 40) + 5 →
    setDDRAM s i v = .fault (.indexOutOfRange (max (5 * (i % 40)) s.cfg.frameLen))) ∧
  ∀ (s : State) (d : Byte), s.cgramMode = false →
    let base := 5 * (tableCell s.twoLineMode s.ac.toNat % 40)
    s.cfg.frameLen < base + 5 →
    exec (.wrData d) s = .fault (.indexOutOfRange (max base s.cfg.frameLen)) ∧
    ∀ q, s.bitMode = .eight → s.pending = requests [.writeData d] ++ q →
      step s = .fault (.indexOutOfRange (max base s.cfg.frameLen))

/-- The rows drawn for a code: the ROM from 0x20 up, CGRAM glyph `code mod 8` for codes 0 to 7 (and 8 to 15
with LOWCODE = mirror), blank for the rest; always FONT_ROWS rows; only the low 5 bits of a CGRAM cell
(41 R120 to R122; the spec's decisions D7, D8, D9, D10, logs 8 and 11). -/
def Obligations.GlyphSelection : Prop :=
  ∀ (c : Config) (m : Memory) (code : Byte), c.wf = true →
    (glyph c m code).length = c.duty.fontRows ∧
    ∀ r k, r < c.duty.fontRows → k < 5 →
      ((glyph c m code).getD r 0).getLsbD (4 - k) =
        if 0x20 ≤ code.toNat then ((c.font.getD (code.toNat - 0x20) []).getD r 0).getLsbD (4 - k)
        else if code.toNat < 8 ∨ (c.lowCode = .mirror ∧ code.toNat < 16)
        then decide (r < 8) && (Memory.read .cgram m (8 * (code.toNat % 8) + r)).getLsbD (4 - k)
        else false

/-- Drawing one cell: its pixels show the glyph of its code, bit 4 of a row leftmost, and every bit that the
cell does not own is kept (41 R123; 40 R103; 20 R53; the spec's D8, log 11). -/
def Obligations.RenderCellDrawsItsGlyph : Prop :=
  ∀ (s : State) (i : Nat), s.Legal → i < 80 →
    ∃ f, renderCell s.cfg s.twoLineMode s.ddram s.cgram i s.frame = .stored f ∧
      f.length = s.cfg.frameLen ∧
      (∀ r k, r < s.cfg.duty.fontRows → k < 5 →
        framePixel f (5 * (i % 40) + k) (rowBase s.cfg.duty s.twoLineMode i + r) = cellPixel s i r k) ∧
      ∀ n b, cellOwns s.cfg.duty s.twoLineMode i n b = false →
        framePixel f n b = framePixel s.frame n b

/-- After a full redraw with duty 16 in two-line mode the frame shows every cell: row `r`, column `k` of cell
`i` is bit `r + 8 * (i / 40)` of word `5 * (i mod 40) + k` (41 R125; bit 4 of a row leftmost is the spec's decision
D8, log 11). -/
def Obligations.FullRedrawShowsEveryCell : Prop :=
  ∀ (s t : State) (i : Instr), s.Legal → s.cfg.duty = .duty16 → s.twoLineMode = true →
    redraws i s = true → exec i s = .next t →
    ∀ c r k, c < 80 → r < 8 → k < 5 →
      framePixel t.frame (5 * (c % 40) + k) (r + 8 * (c / 40)) = cellPixel t c r k

/-- In every other configuration a full redraw shows the cells drawn last: 40 to 79 in ascending order, 0 to
39 in descending order (70_reset_and_hazards.md R217; the order is the parameter of the spec's D11, that the cells
share bits its D34, bit 4 leftmost its D8, log 11). -/
def Obligations.OverlaidRedrawShowsTheLastCells : Prop :=
  ∀ (s t : State) (i : Instr), s.Legal → ¬ (s.cfg.duty = .duty16 ∧ s.twoLineMode = true) →
    redraws i s = true → exec i s = .next t →
    ∀ c r k, (if s.cfg.redrawOrder = .ascending then 40 ≤ c ∧ c < 80 else c < 40) →
      r < s.cfg.duty.fontRows → k < 5 →
      framePixel t.frame (5 * (c % 40) + k) r = cellPixel t c r k

/-- Only a data write, Clear display and the display scroll touch the frame (20_memory.md R70). -/
def Obligations.OnlyTheTriggersTouchTheFrame : Prop :=
  ∀ (i : Instr) (s t : State), exec i s = .next t → t.frame ≠ s.frame →
    (∃ d, i = .wrData d) ∨ i = .clearDisplay ∨ ∃ rl x, i = .cursorShift true rl x

/-- A step never changes a bit of the frame that carries no pixel for the duty, nor any word from 200 on:
they keep FRAME_RESET for ever (40 R100; 20 R61). -/
def Obligations.UndrawableBitsNeverChange : Prop :=
  ∀ s t : State, s.Legal → step s = .next t →
    ∀ n b, drawable s.cfg.duty n b = false → framePixel t.frame n b = framePixel s.frame n b

/-! ## Rules about the whole machine -/

/-- What every instruction does to AC, completely, and that no transfer does anything to it
(10_state.md R13). The line bit of the step is the spec's decision D19, the move of AC by a display scroll and
its absence in a cursor move its D20, the polarity of R/L its D21, the masking after a CGRAM data write its D23,
and arithmetic modulo 128 its D1 (log 10). -/
def Obligations.AddressCounterTable : Prop :=
  (∀ (i : Instr) (s t : State), exec i s = .next t →
    t.ac.toNat = match i with
      | .setDdramAddr a => a.toNat
      | .setCgramAddr a => a.toNat
      | .cursorShift sc rl _ => if sc then (s.ac.toNat + if rl then 1 else 127) % 128 else s.ac.toNat
      | .returnHome _ => 0
      | .clearDisplay => 0
      | .wrData _ =>
        if s.cgramMode then (s.ac.toNat + if s.cm = .inc then 1 else 63) % 64
        else tableStep s.cfg.stepFlip s.twoLineMode s.cm s.ac.toNat
      | .functionSet _ _ _ => s.ac.toNat
      | .displayControl _ _ _ => s.ac.toNat
      | .entryModeSet _ _ => s.ac.toNat
      | .nop => s.ac.toNat
      | .rdCmd => s.ac.toNat
      | .rdData => s.ac.toNat) ∧
  ∀ (s : State) (tr : Transaction), (transfer tr s).1.ac = s.ac

/-- The writers of the register bank: `cm` and `autoScrollMode` by Entry mode set and Clear display,
`twoLineMode` by Function set, the display flags by Display on/off control, and by nothing else
(10_state.md R20). -/
def Obligations.RegisterBankWriters : Prop :=
  ∀ (i : Instr) (s t : State), exec i s = .next t →
    (t.cm, t.autoScrollMode) = (match i with
      | .entryModeSet id sh => (if id then .inc else .dec, sh)
      | .clearDisplay => (.inc, false)
      | _ => (s.cm, s.autoScrollMode)) ∧
    t.twoLineMode = (match i with
      | .functionSet _ n _ => n
      | _ => s.twoLineMode) ∧
    (t.displayOn, t.cursorOn, t.blinkOn) = (match i with
      | .displayControl d c b => (d, c, b)
      | _ => (s.displayOn, s.cursorOn, s.blinkOn))

/-- The writers of the other registers: the position registers by the cursor move, Return home and Clear
display, the scroll offset also by the display scroll; `cgramMode` by the two address commands; `bitMode`
by Function set; DR by Set DDRAM address and a DDRAM data write; IR by no instruction's own effect
(10_state.md R12, R15, R16, R28, R29, R37; the spec's D25, D30, log 10). -/
def Obligations.OtherRegisterWriters : Prop :=
  ∀ (i : Instr) (s t : State), exec i s = .next t →
    ((t.cursorX, t.cursorY) ≠ (s.cursorX, s.cursorY) →
      (∃ rl x, i = .cursorShift false rl x) ∨ (∃ x, i = .returnHome x) ∨ i = .clearDisplay) ∧
    (t.scrollOffset ≠ s.scrollOffset →
      (∃ rl x, i = .cursorShift true rl x) ∨ (∃ x, i = .returnHome x) ∨ i = .clearDisplay) ∧
    t.cgramMode = (match i with
      | .setDdramAddr _ => false
      | .setCgramAddr _ => true
      | _ => s.cgramMode) ∧
    t.bitMode = (match i with
      | .functionSet dl _ _ => if dl then .eight else .four
      | _ => s.bitMode) ∧
    (t.dr ≠ s.dr → (∃ a, i = .setDdramAddr a) ∨ ((∃ d, i = .wrData d) ∧ s.cgramMode = false)) ∧
    t.ir = s.ir

/-- Every byte of DDRAM reads as before after an instruction that is neither a data write to DDRAM nor Clear
display, and every byte of CGRAM after one that is no data write to CGRAM (20_memory.md R50). -/
def Obligations.OnlyStoresChangeMemory : Prop :=
  ∀ (i : Instr) (s t : State), exec i s = .next t →
    ((i ≠ .clearDisplay ∧ ((∃ d, i = .wrData d) → s.cgramMode = true)) →
      ∀ a, Memory.read .ddram t.ddram a = Memory.read .ddram s.ddram a) ∧
    (((∃ d, i = .wrData d) → s.cgramMode = false) →
      ∀ a, Memory.read .cgram t.cgram a = Memory.read .cgram s.cgram a)

/-- The configuration after reset is the construction argument, and no step changes it
(70_reset_and_hazards.md R205). -/
def Obligations.ConfigurationNeverChanges : Prop :=
  (∀ (n : Nat) (c : Config) (dr ir : Byte) (m : Memory) (s : State), construct n c dr ir m = .next s →
    Duty.ofNumber n = some s.cfg.duty ∧ s.cfg = { c with duty := s.cfg.duty }) ∧
  ∀ s t : State, step s = .next t → t.cfg = s.cfg

/-- The guarded accesses: the sentinel and the ignored store outside DDRAM, the masked CGRAM index, what the
stores write, and that each redraws (20_memory.md R54 to R57). -/
def Obligations.GuardedMemoryAccess : Prop :=
  (∀ (s : State) (i : Int) (v : Byte), i < 0 ∨ 80 ≤ i →
    getDDRAM s.ddram i = 0xFF ∧ setDDRAM s i v = .next s) ∧
  ∀ (s : State) (i : Nat) (v : Byte),
    (i < 80 → getDDRAM s.ddram i = Memory.read .ddram s.ddram i) ∧
    getCGRAM s.cgram i = Memory.read .cgram s.cgram (i % 64) ∧
    (s.Legal → i < 80 → ∃ t, setDDRAM s i v = .next t ∧ t = { s with ddram := t.ddram, frame := t.frame } ∧
      (∀ j, Memory.read .ddram t.ddram j = if j = i then v else Memory.read .ddram s.ddram j) ∧
      renderCell t.cfg t.twoLineMode t.ddram t.cgram i s.frame = .stored t.frame) ∧
    (s.Legal → ∃ t, setCGRAM s i v = .next t ∧ t = { s with cgram := t.cgram, frame := t.frame } ∧
      (∀ j, Memory.read .cgram t.cgram j = if j = i % 64 then v else Memory.read .cgram s.cgram j) ∧
      redrawAll t.cfg t.twoLineMode t.ddram t.cgram s.frame = .stored t.frame)

/-- What no rule reads into an output cannot be learnt: two states that differ only in the display flags, the
cursor, the scroll offset and the auto-scroll flag stay so under every step, with the same replies, frame
and everything else (10_state.md R22, R27, R30; 41 R125; 70 R218). That no rendering reads the scroll offset, the
display flags or the cursor is the spec's decision D12 (log 11). -/
def Obligations.UnobservedStateStaysUnobserved : Prop :=
  ∀ s t : State, s.sameButUnobserved t → bothAnswer State.sameButUnobserved (step s) (step t)

/-- CGRAM cannot be read on the bus: two states that differ only in CGRAM and the frame stay so under every
step but a snapshot, with the same replies and every register the same (44_data_access.md R173 (b)). -/
def Obligations.CgramCannotBeReadOnTheBus : Prop :=
  ∀ s t : State, s.sameButGlyphs t → (∀ q, s.pending ≠ .snapshot :: q) →
    bothAnswer State.sameButGlyphs (step s) (step t)

/-! ## Safety -/

/-- Every step keeps a legal state legal. -/
def Obligations.StepKeepsLegal : Prop :=
  ∀ s t : State, s.Legal → step s = .next t → t.Legal

/-- In a legal state every instruction and every request completes: nothing faults, nothing is refused
(60_exceptions.md R185). -/
def Obligations.EveryTransactionCompletes : Prop :=
  ∀ s : State, s.Legal → (∃ t, step s = .next t) ∧ ∀ i : Instr, ∃ t, exec i s = .next t

/-- The state after construction is legal, for every well-formed configuration and every value of the free
inputs, and so is `State.reset`, whose configuration and free inputs are the model's choice (logs 4 to 7). -/
def Obligations.ResetIsLegal : Prop :=
  (∀ (c : Config) (dr ir : Byte) (m : Memory), c.wf = true → Memory.wf .cgram m = true →
    (State.resetWith c dr ir m).Legal) ∧
  State.reset.Legal

/-- Construction fails exactly on a bad geometry, before any core exists (60_exceptions.md R183; the
conditions are the spec's D6, D7). -/
def Obligations.ConstructionFailsOnBadGeometryOnly : Prop :=
  ∀ (n : Nat) (c : Config) (dr ir : Byte) (m : Memory),
    let good := (n = 8 ∨ n = 11 ∨ n = 16) ∧ 200 ≤ c.frameLen ∧ c.frameLen ≤ 400 ∧
      c.frameReset.length = c.frameLen ∧ c.font.length = 224 ∧
      ∀ g ∈ c.font, g.length = if n = 11 then 11 else 8
    (good → ∃ s, construct n c dr ir m = .next s) ∧
    (¬ good → construct n c dr ir m = .fault .constructionFailure)

/-- The state after construction (70_reset_and_hazards.md R201, R202, R204) and what is observable of it at once
(R207). The values of the Controller are the spec's decision D2, of `scrollOffset` and the display flags its D3,
that the frame is FRAME_RESET its D5 (log 8), and that the first `readCommand` gives AC, so 0, its D16 (log 9). -/
def Obligations.ResetValuesAndFirstReads : Prop :=
  ∀ (n : Nat) (c : Config) (dr ir : Byte) (m : Memory) (s : State), construct n c dr ir m = .next s →
    (s.ac = 0 ∧ s.dr = dr ∧ s.ir = ir ∧ s.cgramMode = false ∧ s.bitMode = .eight ∧ s.cm = .inc ∧
      s.autoScrollMode = false ∧ s.hhn = true) ∧
    ((∀ i, i < 80 → Memory.read .ddram s.ddram i = 0x20) ∧ s.cgram = m ∧ s.cursorX = 0 ∧ s.cursorY = 0 ∧
      s.twoLineMode = false ∧ s.scrollOffset = 0 ∧ s.displayOn = false ∧ s.cursorOn = false ∧
      s.blinkOn = false ∧ s.frame = c.frameReset) ∧
    runSteps 3 { s with pending := requests [.readCommand, .readData] ++ [.snapshot] } =
      .next { s with replies := [.commandByte 0, .dataByte dr, .frameWords c.frameReset] }

/-- With a frame shorter than the 200 words of the 40 columns of cells, every full redraw and Clear display answer
IndexOutOfRange at the first column outside: FRAME_LEN, or, where the redraw begins at cell 79, the first column
of that cell if it is beyond (60_exceptions.md R184, R188; the order is the parameter of the spec's decision D11,
log 11). No well-formed configuration has such a frame (R183). -/
def Obligations.ShortFrameFaultsEveryRedraw : Prop :=
  ∀ (s : State) (i : Instr), s.cfg.frameLen < 200 →
    (redraws i s = true → exec i s = .fault (.indexOutOfRange
      (if s.cfg.redrawOrder = .ascending then s.cfg.frameLen else max 195 s.cfg.frameLen))) ∧
    exec .clearDisplay s = .fault (.indexOutOfRange s.cfg.frameLen)
end

