-- ==== Sys2Proof/Laws/Frame.lean ====
section
/-! SUPPORT. The laws of the segment framebuffer: what a masked merge, a column store and a glyph store do
to every bit of the frame. -/

namespace Sys2Proof.Machine

@[simp] theorem StoreResult.stored_andThen (f : List FrameWord) (k : List FrameWord → StoreResult) :
    (StoreResult.stored f).andThen k = k f := rfl

@[simp] theorem StoreResult.outOfRange_andThen (n : Nat) (f : List FrameWord)
    (k : List FrameWord → StoreResult) :
    (StoreResult.outOfRange n f).andThen k = StoreResult.outOfRange n f := rfl

theorem frameWord_set {f : List FrameWord} {n : Nat} (h : n < f.length) (v : FrameWord) (m : Nat) :
    frameWord (f.set n v) m = if m = n then v else frameWord f m := by
  unfold frameWord
  by_cases hm : m = n
  · subst hm; simp [h]
  · simp [List.getD_eq_getElem?_getD, List.getElem?_set_ne (Ne.symm hm), hm]

/-- The masked merge, bit by bit: under the mask the new bit, elsewhere the old (40 R102). -/
theorem merge_bit (old desired m : FrameWord) (b : Nat) :
    (merge old desired m).getLsbD b = if m.getLsbD b then desired.getLsbD b else old.getLsbD b := by
  unfold merge
  simp only [BitVec.getLsbD_xor, BitVec.getLsbD_and]
  cases old.getLsbD b <;> cases desired.getLsbD b <;> cases m.getLsbD b <;> rfl

/-- The bits a store may write are exactly the bits of the glyph rows (40 R101, R103). -/
theorem storeMask_bit (d : Duty) (h : HalfLine) (b : Nat) :
    (storeMask d h).getLsbD b =
      (decide (storeShift d h ≤ b) && decide (b < storeShift d h + d.fontRows)) := by
  rcases Nat.lt_or_ge b 16 with hb | hb
  · have hall : ∀ b < 16, (storeMask d h).getLsbD b =
        (decide (storeShift d h ≤ b) && decide (b < storeShift d h + d.fontRows)) := by
      cases d <;> cases h <;> decide
    exact hall b hb
  · have hr : ¬ b < storeShift d h + d.fontRows := by
      cases d <;> cases h <;> simp only [storeShift, Duty.fontRows] <;> omega
    rw [BitVec.getLsbD_of_ge _ _ hb, decide_eq_false hr, Bool.and_false]

theorem glyphFold_bit (rows : List Byte) (k s : Nat) (n : Nat) (hn : s + n ≤ 16) (b : Nat) :
    ((List.range n).foldl
      (fun desired r => if (rows.getD r 0).getLsbD (4 - k) then desired ||| (1#16 <<< (r + s)) else desired)
      0).getLsbD b =
      (decide (s ≤ b) && decide (b < s + n) && (rows.getD (b - s) 0).getLsbD (4 - k)) := by
  induction n with
  | zero =>
    by_cases h : s ≤ b
    · simp [h]
    · simp [h]
  | succ n ih =>
    have ih := ih (by omega)
    rw [List.range_succ, List.foldl_append, List.foldl_cons, List.foldl_nil]
    by_cases hbn : b = n + s
    · subst hbn
      have h1 : (decide (n + s < s + n)) = false := by simp; omega
      have h2 : n + s < s + (n + 1) := by omega
      have h3 : n + s < 16 := by omega
      split
      · rename_i hr
        simp only [BitVec.getLsbD_or, ih, h1, h2, Nat.add_sub_cancel, hr]
        simp [h3]
      · rename_i hr
        rw [ih, h1, Nat.add_sub_cancel, Bool.eq_false_of_not_eq_true hr]
        simp
    · have h1 : decide (b < s + (n + 1)) = decide (b < s + n) := by
        simp only [decide_eq_decide]; omega
      rw [h1, ← ih]
      split
      · rw [BitVec.getLsbD_or]
        have : (1#16 <<< (n + s)).getLsbD b = false := by
          rw [BitVec.getLsbD_shiftLeft, BitVec.getLsbD_one]
          by_cases hlt : b < n + s
          · simp [hlt]
          · have : b - (n + s) ≠ 0 := by omega
            simp [this]
        rw [this, Bool.or_false]
      · rfl

/-- The word of one glyph column: bit `shift + r` is bit `4 - k` of row `r` (40 R103). -/
theorem glyphColumn_bit (d : Duty) (h : HalfLine) (rows : List Byte) (k b : Nat) :
    (glyphColumn d h rows k).getLsbD b =
      (decide (storeShift d h ≤ b) && decide (b < storeShift d h + d.fontRows) &&
        (rows.getD (b - storeShift d h) 0).getLsbD (4 - k)) :=
  glyphFold_bit rows k (storeShift d h) d.fontRows (by cases d <;> cases h <;> decide) b

/-- What a column store inside the frame does. -/
theorem storeColumn_inside {c : Config} {f : List FrameWord} {column : Nat} (hcol : column < c.frameLen)
    (pattern : FrameWord) (h : HalfLine) :
    storeColumn c f column pattern h =
      .stored (f.set column (merge (frameWord f column) pattern (storeMask c.duty h))) := by
  simp [storeColumn, hcol]

theorem storeColumn_outside {c : Config} {f : List FrameWord} {column : Nat} (hcol : c.frameLen ≤ column)
    (pattern : FrameWord) (h : HalfLine) : storeColumn c f column pattern h = .outOfRange column f := by
  simp [storeColumn, Nat.not_lt.2 hcol]

theorem storeGlyphColumns_inside (c : Config) (base : Nat) (h : HalfLine) (rows : List Byte)
    (ks : List Nat) (f : List FrameWord) (hlen : f.length = c.frameLen) (hnd : ks.Nodup)
    (hin : ∀ k ∈ ks, base + k < c.frameLen) :
    ∃ f', storeGlyphColumns c base h rows ks f = .stored f' ∧ f'.length = f.length ∧
      ∀ n b, (frameWord f' n).getLsbD b =
        if (base ≤ n ∧ n - base ∈ ks) ∧ storeShift c.duty h ≤ b ∧ b < storeShift c.duty h + c.duty.fontRows
        then (rows.getD (b - storeShift c.duty h) 0).getLsbD (4 - (n - base))
        else (frameWord f n).getLsbD b := by
  induction ks generalizing f with
  | nil => exact ⟨f, rfl, rfl, by simp⟩
  | cons k ks ih =>
    obtain ⟨hk, hnd⟩ := List.nodup_cons.1 hnd
    have hcol : base + k < c.frameLen := hin k List.mem_cons_self
    obtain ⟨f', h1, h2, h3⟩ := ih
      (f.set (base + k) (merge (frameWord f (base + k)) (glyphColumn c.duty h rows k) (storeMask c.duty h)))
      (by simpa using hlen) hnd fun j hj => hin j (List.mem_cons_of_mem _ hj)
    refine ⟨f', ?_, by simpa using h2, fun n b => ?_⟩
    · rw [storeGlyphColumns, storeColumn_inside hcol, StoreResult.stored_andThen, h1]
    · rw [h3, frameWord_set (by omega)]
      by_cases hn : n = base + k
      · subst hn
        have e1 : base + k - base = k := by omega
        simp only [e1, hk, and_false, false_and, if_false, if_true, merge_bit, storeMask_bit,
          glyphColumn_bit, List.mem_cons, true_or, and_true, Nat.le_add_right, true_and]
        by_cases hb : storeShift c.duty h ≤ b ∧ b < storeShift c.duty h + c.duty.fontRows
        · simp [hb]
        · rw [if_neg hb, if_neg]
          simpa using hb
      · rw [if_neg hn]
        have : (base ≤ n ∧ n - base ∈ k :: ks) ↔ (base ≤ n ∧ n - base ∈ ks) := by
          simp only [List.mem_cons]
          constructor
          · rintro ⟨hb, rfl | hm⟩
            · omega
            · exact ⟨hb, hm⟩
          · exact fun ⟨hb, hm⟩ => ⟨hb, .inr hm⟩
        simp only [this]

/-- What a glyph store inside the frame does to every bit: rows in the 5 columns, the rest kept
(40 R103). -/
theorem storeGlyphRow_inside (c : Config) (f : List FrameWord) (base : Nat) (h : HalfLine)
    (rows : List Byte) (hlen : f.length = c.frameLen) (hin : base + 5 ≤ c.frameLen) :
    ∃ f', storeGlyphRow c f base h rows = .stored f' ∧ f'.length = f.length ∧
      ∀ n b, (frameWord f' n).getLsbD b =
        if (base ≤ n ∧ n < base + 5) ∧ storeShift c.duty h ≤ b ∧ b < storeShift c.duty h + c.duty.fontRows
        then (rows.getD (b - storeShift c.duty h) 0).getLsbD (4 - (n - base))
        else (frameWord f n).getLsbD b := by
  obtain ⟨f', h1, h2, h3⟩ := storeGlyphColumns_inside c base h rows [0, 1, 2, 3, 4] f hlen (by decide)
    (by intro k hk; simp at hk; omega)
  refine ⟨f', h1, h2, fun n b => ?_⟩
  rw [h3]
  have : (base ≤ n ∧ n - base ∈ [0, 1, 2, 3, 4]) ↔ (base ≤ n ∧ n < base + 5) := by
    simp only [List.mem_cons, List.not_mem_nil, or_false]; omega
  simp only [this]

/-- Whether a glyph store succeeds, and the column it fails at, do not depend on the frame or the rows. -/
theorem storeGlyphColumns_outcome (c : Config) (base : Nat) (h : HalfLine) (rows rows' : List Byte)
    (ks : List Nat) (f g : List FrameWord) :
    (∃ f' g', storeGlyphColumns c base h rows ks f = .stored f' ∧
      storeGlyphColumns c base h rows' ks g = .stored g') ∨
    (∃ n f' g', storeGlyphColumns c base h rows ks f = .outOfRange n f' ∧
      storeGlyphColumns c base h rows' ks g = .outOfRange n g') := by
  induction ks generalizing f g with
  | nil => exact .inl ⟨f, g, rfl, rfl⟩
  | cons k ks ih =>
    rcases Nat.lt_or_ge (base + k) c.frameLen with hlt | hge
    · simp only [storeGlyphColumns, storeColumn_inside hlt, StoreResult.stored_andThen]
      exact ih _ _
    · simp only [storeGlyphColumns, storeColumn_outside hge, StoreResult.outOfRange_andThen]
      exact .inr ⟨base + k, f, g, rfl, rfl⟩

end Sys2Proof.Machine
end

