-- ==== Sys2Proof/Laws/Character.lean ====
section
/-! SUPPORT. The laws of glyph selection and rendering: the rows of a glyph, what drawing one cell and a list
of cells does to every bit of the frame. -/

namespace Sys2Proof

/-- The four checks of a well-formed configuration as facts. -/
theorem Config.wf_iff (c : Config) :
    c.wf = true ↔ (200 ≤ c.frameLen ∧ c.frameLen ≤ 400) ∧ c.frameReset.length = c.frameLen ∧
      c.font.length = 224 ∧ ∀ g ∈ c.font, g.length = c.duty.fontRows := by
  simp [Config.wf, Config.frameLenOk, Config.frameResetOk, Config.fontCodesOk, Config.fontRowsOk,
    and_assoc]

theorem Config.frameLen_ge {c : Config} (h : c.wf = true) : 200 ≤ c.frameLen :=
  ((Config.wf_iff c).1 h).1.1

theorem Config.romOf_length (rows : Nat) (pixels : Nat → Nat → BitVec 5) :
    (Config.romOf rows pixels).length = 224 := by
  rw [Config.romOf, List.length_map, List.length_range]

theorem Config.romOf_rows (rows : Nat) (pixels : Nat → Nat → BitVec 5) :
    ∀ g ∈ Config.romOf rows pixels, g.length = rows := by
  intro g hg
  obtain ⟨k, -, rfl⟩ := List.mem_map.1 hg
  rw [List.length_map, List.length_range]

/-- The standard configuration with any ROM of the right form is well formed. -/
theorem Config.standard_wf (pixels : Nat → Nat → BitVec 5) :
    ({ Config.standard with font := Config.romOf 8 pixels } : Config).wf = true :=
  (Config.wf_iff _).2
    ⟨⟨show 200 ≤ 400 by decide, show 400 ≤ 400 by decide⟩, List.length_replicate, Config.romOf_length 8 pixels,
      Config.romOf_rows 8 pixels⟩

end Sys2Proof

namespace Sys2Proof.Machine

theorem cgramGlyph_length (c : Config) (m : Memory) (g : Nat) :
    (cgramGlyph c m g).length = c.duty.fontRows := by simp [cgramGlyph]

theorem romGlyph_length {c : Config} (hc : c.wf = true) {code : Byte} (h : 0x20 ≤ code.toNat) :
    (romGlyph c code).length = c.duty.fontRows := by
  obtain ⟨-, -, hlen, hrows⟩ := (Config.wf_iff c).1 hc
  have hlt : code.toNat - 0x20 < c.font.length := by have := code.isLt; omega
  simp only [romGlyph, List.length_map, List.getD_eq_getElem?_getD, List.getElem?_eq_getElem hlt,
    Option.getD_some]
  exact hrows _ (List.getElem_mem hlt)

/-- Every glyph has FONT_ROWS rows (41 R121). -/
theorem glyph_length {c : Config} (hc : c.wf = true) (m : Memory) (code : Byte) :
    (glyph c m code).length = c.duty.fontRows := by
  unfold glyph
  split
  · exact romGlyph_length hc ‹_›
  · split
    · exact cgramGlyph_length ..
    · split
      · exact cgramGlyph_length ..
      · simp [blankGlyph]

/-- Whether cell `i` owns bit `b` of column `n` (20 R61, 40 R101). -/
def covers (c : Config) (twoLine : Bool) (i n b : Nat) : Prop :=
  n / 5 = i % 40 ∧ storeShift c.duty (cellHalfLine twoLine i) ≤ b ∧
    b < storeShift c.duty (cellHalfLine twoLine i) + c.duty.fontRows

/-- The pixel cell `i` shows at bit `b` of column `n`. -/
def cellBit (c : Config) (twoLine : Bool) (ddram cgram : Memory) (i n b : Nat) : Bool :=
  ((glyph c cgram (Memory.read .ddram ddram i)).getD
    (b - storeShift c.duty (cellHalfLine twoLine i)) 0).getLsbD (4 - n % 5)

/-- Drawing one cell: its own bits show its glyph, every other bit is kept (41 R123). -/
theorem renderCell_stored {c : Config} (hc : c.wf = true) (twoLine : Bool) (ddram cgram : Memory) (i : Nat)
    {f : List FrameWord} (hf : f.length = c.frameLen) :
    ∃ f', renderCell c twoLine ddram cgram i f = .stored f' ∧ f'.length = c.frameLen ∧
      (∀ n b, covers c twoLine i n b →
        (frameWord f' n).getLsbD b = cellBit c twoLine ddram cgram i n b) ∧
      ∀ n b, ¬ covers c twoLine i n b → (frameWord f' n).getLsbD b = (frameWord f n).getLsbD b := by
  have hlen := Config.frameLen_ge hc
  obtain ⟨f', h1, h2, h3⟩ := storeGlyphRow_inside c f (5 * (i % 40)) (cellHalfLine twoLine i)
    (glyph c cgram (Memory.read .ddram ddram i)) hf (by omega)
  refine ⟨f', h1, h2.trans hf, fun n b hcov => ?_, fun n b hcov => ?_⟩
  · obtain ⟨hn, hb⟩ := hcov
    rw [h3, if_pos ⟨by omega, hb⟩, cellBit]
    have : n - 5 * (i % 40) = n % 5 := by omega
    rw [this]
  · rw [h3, if_neg]
    rintro ⟨hn, hb⟩
    exact hcov ⟨by omega, hb⟩

/-- Drawing a list of cells completes; a bit that no cell of the list owns is kept, and a bit shows the
last cell of the list that owns it (41 R124). -/
theorem renderCells_stored {c : Config} (hc : c.wf = true) (twoLine : Bool) (ddram cgram : Memory)
    (is : List Nat) {f : List FrameWord} (hf : f.length = c.frameLen) :
    ∃ f', renderCells c twoLine ddram cgram is f = .stored f' ∧ f'.length = c.frameLen ∧
      (∀ n b, (∀ i ∈ is, ¬ covers c twoLine i n b) →
        (frameWord f' n).getLsbD b = (frameWord f n).getLsbD b) ∧
      ∀ earlier i later, is = earlier ++ i :: later →
        ∀ n b, covers c twoLine i n b → (∀ j ∈ later, ¬ covers c twoLine j n b) →
          (frameWord f' n).getLsbD b = cellBit c twoLine ddram cgram i n b := by
  induction is generalizing f with
  | nil => exact ⟨f, rfl, hf, fun _ _ _ => rfl, by simp⟩
  | cons j js ih =>
    obtain ⟨f₁, h1, h2, hown, hkeep⟩ := renderCell_stored hc twoLine ddram cgram j hf
    obtain ⟨f₂, g1, g2, g3, g4⟩ := ih h2
    refine ⟨f₂, by rw [renderCells, h1, StoreResult.stored_andThen, g1], g2, fun n b hno => ?_, ?_⟩
    · rw [g3 n b fun i hi => hno i (List.mem_cons_of_mem _ hi), hkeep n b (hno j List.mem_cons_self)]
    · intro earlier i later heq n b hcov hlater
      cases earlier with
      | nil =>
        obtain ⟨rfl, rfl⟩ := List.cons.inj heq
        rw [g3 n b hlater, hown n b hcov]
      | cons e es =>
        obtain ⟨rfl, rfl⟩ := List.cons.inj heq
        exact g4 es i later rfl n b hcov hlater

theorem redrawAll_stored {c : Config} (hc : c.wf = true) (twoLine : Bool) (ddram cgram : Memory)
    {f : List FrameWord} (hf : f.length = c.frameLen) :
    ∃ f', redrawAll c twoLine ddram cgram f = .stored f' ∧ f'.length = c.frameLen := by
  obtain ⟨f', h1, h2, -⟩ := renderCells_stored hc twoLine ddram cgram (cellOrder c.redrawOrder) hf
  exact ⟨f', h1, h2⟩

/-- Whether drawing succeeds depends on the configuration and the cells alone. -/
theorem renderCells_outcome (c : Config) (twoLine : Bool) (ddram cgram ddram' cgram' : Memory)
    (is : List Nat) (f g : List FrameWord) :
    (∃ f' g', renderCells c twoLine ddram cgram is f = .stored f' ∧
      renderCells c twoLine ddram' cgram' is g = .stored g') ∨
    (∃ n f' g', renderCells c twoLine ddram cgram is f = .outOfRange n f' ∧
      renderCells c twoLine ddram' cgram' is g = .outOfRange n g') := by
  induction is generalizing f g with
  | nil => exact .inl ⟨f, g, rfl, rfl⟩
  | cons i is ih =>
    simp only [renderCells, renderCell, storeGlyphRow]
    obtain ⟨f', g', h1, h2⟩ | ⟨n, f', g', h1, h2⟩ := storeGlyphColumns_outcome c (5 * (i % 40))
      (cellHalfLine twoLine i) (glyph c cgram (Memory.read .ddram ddram i))
      (glyph c cgram' (Memory.read .ddram ddram' i)) [0, 1, 2, 3, 4] f g
    · rw [h1, h2]; exact ih f' g'
    · rw [h1, h2]; exact .inr ⟨n, f', g', rfl, rfl⟩

end Sys2Proof.Machine
end

