-- ==== Sys2Proof/Laws/Memory.lean ====
section
/-! SUPPORT. The laws of the cell lists: a read after a write, and that every memory operation keeps the
canonical form. -/

namespace Sys2Proof.Machine

@[simp] theorem Memory.read_nil (sp : Space) (a : Nat) : Memory.read sp [] a = sp.unlisted := rfl

theorem Memory.read_cons (sp : Space) (b : Nat) (v : Byte) (rest : Memory) (a : Nat) :
    Memory.read sp ((b, v) :: rest) a = if a = b then v else Memory.read sp rest a := rfl

@[simp] theorem Memory.wf_nil (sp : Space) : Memory.wf sp [] = true := rfl

theorem Memory.wfFrom_cons (sp : Space) (lo a : Nat) (v : Byte) (rest : Memory) :
    Memory.wfFrom sp lo ((a, v) :: rest) = true ↔
      lo ≤ a ∧ a < sp.size ∧ v ≠ sp.unlisted ∧ Memory.wfFrom sp (a + 1) rest = true := by
  simp [Memory.wfFrom, and_assoc]

theorem Memory.wfFrom_mono {sp : Space} {lo lo' : Nat} {m : Memory} (h : lo' ≤ lo)
    (hm : Memory.wfFrom sp lo m = true) : Memory.wfFrom sp lo' m = true := by
  cases m with
  | nil => rfl
  | cons x rest =>
    obtain ⟨a, v⟩ := x
    rw [Memory.wfFrom_cons] at hm ⊢
    exact ⟨h.trans hm.1, hm.2⟩

/-- Below the first address nothing is listed. -/
theorem Memory.read_below {sp : Space} {lo : Nat} {m : Memory} (hm : Memory.wfFrom sp lo m = true)
    {a : Nat} (ha : a < lo) : Memory.read sp m a = sp.unlisted := by
  induction m generalizing lo with
  | nil => rfl
  | cons x rest ih =>
    obtain ⟨b, v⟩ := x
    rw [Memory.wfFrom_cons] at hm
    rw [Memory.read_cons, if_neg (by omega)]
    exact ih hm.2.2.2 (by omega)

/-- What a write does to every read, from a canonical memory. -/
theorem Memory.read_write_from {sp : Space} {lo : Nat} {m : Memory} (hm : Memory.wfFrom sp lo m = true)
    (a : Nat) (v : Byte) (b : Nat) :
    Memory.read sp (Memory.write sp m a v) b = if b = a then v else Memory.read sp m b := by
  induction m generalizing lo with
  | nil =>
    by_cases hv : v = sp.unlisted <;> by_cases hb : b = a <;> simp [Memory.write, Memory.read, hv, hb]
  | cons x rest ih =>
    obtain ⟨c, u⟩ := x
    rw [Memory.wfFrom_cons] at hm
    obtain ⟨-, -, -, hrest⟩ := hm
    have hbelow := fun {n : Nat} (hn : n < c + 1) => Memory.read_below hrest hn
    unfold Memory.write
    by_cases hac : a < c
    · by_cases hv : v = sp.unlisted
      · by_cases hb : b = a
        · subst hb
          simp [hac, hv, Memory.read_cons, Nat.ne_of_lt hac, hbelow (Nat.lt_succ_of_lt hac)]
        · simp [hac, hv, hb]
      · simp [hac, hv, Memory.read_cons]
    · by_cases heq : a = c
      · subst heq
        by_cases hv : v = sp.unlisted
        · by_cases hb : b = a
          · subst hb; simp [hv, hbelow (Nat.lt_succ_self b)]
          · simp [hv, hb, Memory.read_cons]
        · by_cases hb : b = a <;> simp [hv, hb, Memory.read_cons]
      · simp only [if_neg hac, if_neg heq, Memory.read_cons, ih hrest]
        by_cases hb : b = c
        · subst hb; simp [Ne.symm heq]
        · simp [hb]

theorem Memory.wfFrom_write {sp : Space} {lo : Nat} {m : Memory} (hm : Memory.wfFrom sp lo m = true)
    {a : Nat} (hlo : lo ≤ a) (ha : a < sp.size) (v : Byte) :
    Memory.wfFrom sp lo (Memory.write sp m a v) = true := by
  induction m generalizing lo with
  | nil =>
    by_cases hv : v = sp.unlisted
    · simp [Memory.write, hv, Memory.wfFrom]
    · simp [Memory.write, hv, Memory.wfFrom, hlo, ha]
  | cons x rest ih =>
    obtain ⟨c, u⟩ := x
    rw [Memory.wfFrom_cons] at hm
    obtain ⟨h1, h2, h3, hrest⟩ := hm
    unfold Memory.write
    by_cases hac : a < c
    · by_cases hv : v = sp.unlisted
      · simp only [if_pos hac, if_pos hv]
        exact (Memory.wfFrom_cons ..).2 ⟨h1, h2, h3, hrest⟩
      · simp only [if_pos hac, if_neg hv]
        exact (Memory.wfFrom_cons ..).2 ⟨hlo, ha, hv, (Memory.wfFrom_cons ..).2 ⟨hac, h2, h3, hrest⟩⟩
    · by_cases heq : a = c
      · subst heq
        by_cases hv : v = sp.unlisted
        · simp only [if_neg hac, if_true, if_pos hv]
          exact Memory.wfFrom_mono (by omega) hrest
        · simp only [if_neg hac, if_true, if_neg hv]
          exact (Memory.wfFrom_cons ..).2 ⟨h1, h2, hv, hrest⟩
      · simp only [if_neg hac, if_neg heq]
        exact (Memory.wfFrom_cons ..).2 ⟨h1, h2, h3, ih hrest (by omega)⟩

/-- A read at the address written gives the value; any other read is as before. -/
theorem Memory.read_write {sp : Space} {m : Memory} (hm : Memory.wf sp m = true) (a : Nat) (v : Byte)
    (b : Nat) : Memory.read sp (Memory.write sp m a v) b = if b = a then v else Memory.read sp m b :=
  Memory.read_write_from hm a v b

/-- Every write inside the memory keeps the canonical form. -/
theorem Memory.wf_write {sp : Space} {m : Memory} (hm : Memory.wf sp m = true) {a : Nat}
    (ha : a < sp.size) (v : Byte) : Memory.wf sp (Memory.write sp m a v) = true :=
  Memory.wfFrom_write hm (Nat.zero_le a) ha v

/-- Outside the memory nothing is listed. -/
theorem Memory.read_outside {sp : Space} {lo : Nat} {m : Memory} (hm : Memory.wfFrom sp lo m = true)
    {a : Nat} (ha : sp.size ≤ a) : Memory.read sp m a = sp.unlisted := by
  induction m generalizing lo with
  | nil => rfl
  | cons x rest ih =>
    obtain ⟨b, v⟩ := x
    rw [Memory.wfFrom_cons] at hm
    rw [Memory.read_cons, if_neg (by omega)]
    exact ih hm.2.2.2

/-- A canonical memory in which every cell reads as an unlisted one is empty. -/
theorem Memory.eq_nil {sp : Space} {m : Memory} (hm : Memory.wf sp m = true)
    (h : ∀ a, a < sp.size → Memory.read sp m a = sp.unlisted) : m = [] := by
  cases m with
  | nil => rfl
  | cons x rest =>
    obtain ⟨a, v⟩ := x
    obtain ⟨-, ha, hv, -⟩ := (Memory.wfFrom_cons ..).1 hm
    exact absurd (by simpa [Memory.read_cons] using h a ha) hv

@[simp] theorem getDDRAM_of_lt {m : Memory} {i : Nat} (h : i < 80) :
    getDDRAM m (i : Int) = Memory.read .ddram m i := if_pos h

theorem putDDRAM_of_lt {m : Memory} {i : Nat} (h : i < 80) (v : Byte) :
    putDDRAM m (i : Int) v = Memory.write .ddram m i v := if_pos h

/-- Outside 0 to 79 a read gives the sentinel and a store does nothing. -/
theorem ddram_outside {i : Int} (h : i < 0 ∨ 80 ≤ i) (m : Memory) (v : Byte) :
    getDDRAM m i = 0xFF ∧ putDDRAM m i v = m := by
  cases i with
  | ofNat i =>
    have hi : ¬ i < 80 := by
      rcases h with h | h
      · exact absurd h (by simp)
      · have : (80 : Int) ≤ (i : Int) := h
        omega
    exact ⟨if_neg hi, if_neg hi⟩
  | negSucc i => exact ⟨rfl, rfl⟩

theorem putDDRAM_wf {m : Memory} (hm : Memory.wf .ddram m = true) (i : Int) (v : Byte) :
    Memory.wf .ddram (putDDRAM m i v) = true := by
  unfold putDDRAM
  split
  · split
    · exact Memory.wf_write hm (by simpa [Space.size] using ‹_ < 80›) v
    · exact hm
  · exact hm

theorem mask6_eq_mod (i : Nat) : i &&& 0x3F = i % 64 := Nat.and_two_pow_sub_one_eq_mod i 6

theorem putCGRAM_wf {m : Memory} (hm : Memory.wf .cgram m = true) (i : Nat) (v : Byte) :
    Memory.wf .cgram (putCGRAM m i v) = true :=
  Memory.wf_write hm (by rw [mask6_eq_mod]; exact Nat.mod_lt _ (by decide)) v

end Sys2Proof.Machine
end

