-- ==== Sys2Proof/Laws/Operands.lean ====
section
/-! SUPPORT. The laws of the operand forms and of the nibble protocol. -/

namespace Sys2Proof.Machine

/-- `idx` is total into 0 to 79 (20_memory.md R63). -/
theorem idx_lt (twoLine : Bool) (a : Address) : idx twoLine a < 80 := by
  have ha := a.isLt
  simp only [idx]
  split <;> split <;> omega

theorem wrapScroll_lt (n : Nat) (o : Movement) : wrapScroll n o < 40 := by
  unfold wrapScroll
  have h0 := Int.emod_nonneg ((n : Int) + o.toInt) (b := 40) (by decide)
  have h1 := Int.emod_lt_of_pos ((n : Int) + o.toInt) (b := 40) (by decide)
  omega

theorem moveCursor_of {x nx : Nat} (y : BitVec 1) {o : Movement} (h : (x : Int) + o.toInt = nx) :
    moveCursor x y o = if 40 ≤ nx then (nx - 40, y ^^^ 1) else (nx, y) := by
  unfold moveCursor
  rw [h]
  by_cases h40 : 40 ≤ nx
  · have h1 : (40 : Int) ≤ (nx : Int) := by omega
    have h2 : ((nx : Int) - 40).toNat = nx - 40 := by omega
    simp [h1, h2, h40]
  · have h1 : ¬ (40 : Int) ≤ (nx : Int) := by omega
    simp [h1, h40]

theorem moveCursor_inc {x : Nat} (hx : x < 40) (y : BitVec 1) :
    moveCursor x y .inc = if x = 39 then (0, y ^^^ 1) else (x + 1, y) := by
  rw [moveCursor_of (nx := x + 1) y rfl]
  by_cases h : x = 39
  · subst h; rfl
  · rw [if_neg (by omega), if_neg h]

theorem moveCursor_dec {x : Nat} (hx : x < 40) (y : BitVec 1) :
    moveCursor x y .dec = if x = 0 then (39, y ^^^ 1) else (x - 1, y) := by
  by_cases h : x = 0
  · subst h; rfl
  · have hd : (x : Int) + Movement.dec.toInt = ((x - 1 : Nat) : Int) := by
      change (x : Int) + -1 = _
      omega
    rw [moveCursor_of (nx := x - 1) y hd, if_neg (by omega), if_neg h]

theorem moveCursor_lt {x : Nat} (hx : x < 40) (y : BitVec 1) (o : Movement) :
    (moveCursor x y o).1 < 40 := by
  cases o
  · rw [moveCursor_inc hx]; split <;> simp; omega
  · rw [moveCursor_dec hx]; split <;> simp; omega

theorem cgramIndex_lt (ac : Address) : cgramIndex ac < 64 := by
  unfold cgramIndex
  rw [BitVec.toNat_and]
  exact Nat.lt_of_le_of_lt Nat.and_le_right (by decide)

@[simp] theorem writeNibble_eight (hhn : Bool) (b acc : Byte) :
    writeNibble .eight hhn b acc = ⟨b, hhn, true⟩ := rfl

@[simp] theorem writeNibble_high (b acc : Byte) :
    writeNibble .four true b acc = ⟨b &&& 0xF0#8, false, false⟩ := rfl

@[simp] theorem writeNibble_low (b acc : Byte) :
    writeNibble .four false b acc = ⟨(acc &&& 0xF0#8) ||| ((b &&& 0xF0#8) >>> 4), true, true⟩ := rfl

@[simp] theorem readNibble_eight (hhn : Bool) (v : Byte) : readNibble .eight hhn v = v := rfl
@[simp] theorem readNibble_high (v : Byte) : readNibble .four true v = v &&& 0xF0#8 := rfl
@[simp] theorem readNibble_low (v : Byte) : readNibble .four false v = (v &&& 0x0F#8) <<< 4 := rfl
@[simp] theorem phaseAfterRead_eight (hhn : Bool) : phaseAfterRead .eight hhn = hhn := rfl
@[simp] theorem phaseAfterRead_four (hhn : Bool) : phaseAfterRead .four hhn = !hhn := rfl

@[simp] theorem Movement.ofBit_true : Movement.ofBit true = .inc := rfl
@[simp] theorem Movement.ofBit_false : Movement.ofBit false = .dec := rfl

end Sys2Proof.Machine
end

