-- ==== Sys2Proof/Laws/State.lean ====
section
/-! SUPPORT. One lemma per field for each named update of the state, so that no later proof unfolds a record
update. -/

namespace Sys2Proof.Machine

section setLineCount
variable (s : State) (n : Nat)

@[simp] theorem setLineCount_cfg : (setLineCount s n).cfg = s.cfg := rfl
@[simp] theorem setLineCount_ac : (setLineCount s n).ac = s.ac := rfl
@[simp] theorem setLineCount_dr : (setLineCount s n).dr = s.dr := rfl
@[simp] theorem setLineCount_ir : (setLineCount s n).ir = s.ir := rfl
@[simp] theorem setLineCount_cgramMode : (setLineCount s n).cgramMode = s.cgramMode := rfl
@[simp] theorem setLineCount_bitMode : (setLineCount s n).bitMode = s.bitMode := rfl
@[simp] theorem setLineCount_cm : (setLineCount s n).cm = s.cm := rfl
@[simp] theorem setLineCount_autoScrollMode : (setLineCount s n).autoScrollMode = s.autoScrollMode := rfl
@[simp] theorem setLineCount_hhn : (setLineCount s n).hhn = s.hhn := rfl
@[simp] theorem setLineCount_ddram : (setLineCount s n).ddram = s.ddram := rfl
@[simp] theorem setLineCount_cgram : (setLineCount s n).cgram = s.cgram := rfl
@[simp] theorem setLineCount_cursorX : (setLineCount s n).cursorX = s.cursorX := rfl
@[simp] theorem setLineCount_cursorY : (setLineCount s n).cursorY = s.cursorY := rfl
@[simp] theorem setLineCount_scrollOffset : (setLineCount s n).scrollOffset = s.scrollOffset := rfl
@[simp] theorem setLineCount_twoLineMode : (setLineCount s n).twoLineMode = decide (n = 2) := rfl
@[simp] theorem setLineCount_displayOn : (setLineCount s n).displayOn = s.displayOn := rfl
@[simp] theorem setLineCount_cursorOn : (setLineCount s n).cursorOn = s.cursorOn := rfl
@[simp] theorem setLineCount_blinkOn : (setLineCount s n).blinkOn = s.blinkOn := rfl
@[simp] theorem setLineCount_frame : (setLineCount s n).frame = s.frame := rfl
@[simp] theorem setLineCount_pending : (setLineCount s n).pending = s.pending := rfl
@[simp] theorem setLineCount_replies : (setLineCount s n).replies = s.replies := rfl

end setLineCount

section setDisplayMode
variable (s : State) (d c b : Bool)

@[simp] theorem setDisplayMode_cfg : (setDisplayMode s d c b).cfg = s.cfg := rfl
@[simp] theorem setDisplayMode_ac : (setDisplayMode s d c b).ac = s.ac := rfl
@[simp] theorem setDisplayMode_dr : (setDisplayMode s d c b).dr = s.dr := rfl
@[simp] theorem setDisplayMode_ir : (setDisplayMode s d c b).ir = s.ir := rfl
@[simp] theorem setDisplayMode_cgramMode : (setDisplayMode s d c b).cgramMode = s.cgramMode := rfl
@[simp] theorem setDisplayMode_bitMode : (setDisplayMode s d c b).bitMode = s.bitMode := rfl
@[simp] theorem setDisplayMode_cm : (setDisplayMode s d c b).cm = s.cm := rfl
@[simp] theorem setDisplayMode_autoScrollMode : (setDisplayMode s d c b).autoScrollMode = s.autoScrollMode := rfl
@[simp] theorem setDisplayMode_hhn : (setDisplayMode s d c b).hhn = s.hhn := rfl
@[simp] theorem setDisplayMode_ddram : (setDisplayMode s d c b).ddram = s.ddram := rfl
@[simp] theorem setDisplayMode_cgram : (setDisplayMode s d c b).cgram = s.cgram := rfl
@[simp] theorem setDisplayMode_cursorX : (setDisplayMode s d c b).cursorX = s.cursorX := rfl
@[simp] theorem setDisplayMode_cursorY : (setDisplayMode s d c b).cursorY = s.cursorY := rfl
@[simp] theorem setDisplayMode_scrollOffset : (setDisplayMode s d c b).scrollOffset = s.scrollOffset := rfl
@[simp] theorem setDisplayMode_twoLineMode : (setDisplayMode s d c b).twoLineMode = s.twoLineMode := rfl
@[simp] theorem setDisplayMode_displayOn : (setDisplayMode s d c b).displayOn = d := rfl
@[simp] theorem setDisplayMode_cursorOn : (setDisplayMode s d c b).cursorOn = c := rfl
@[simp] theorem setDisplayMode_blinkOn : (setDisplayMode s d c b).blinkOn = b := rfl
@[simp] theorem setDisplayMode_frame : (setDisplayMode s d c b).frame = s.frame := rfl
@[simp] theorem setDisplayMode_pending : (setDisplayMode s d c b).pending = s.pending := rfl
@[simp] theorem setDisplayMode_replies : (setDisplayMode s d c b).replies = s.replies := rfl

end setDisplayMode

section scrollCursor
variable (s : State) (o : Movement)

@[simp] theorem scrollCursor_cfg : (scrollCursor s o).cfg = s.cfg := rfl
@[simp] theorem scrollCursor_ac : (scrollCursor s o).ac = s.ac := rfl
@[simp] theorem scrollCursor_dr : (scrollCursor s o).dr = s.dr := rfl
@[simp] theorem scrollCursor_ir : (scrollCursor s o).ir = s.ir := rfl
@[simp] theorem scrollCursor_cgramMode : (scrollCursor s o).cgramMode = s.cgramMode := rfl
@[simp] theorem scrollCursor_bitMode : (scrollCursor s o).bitMode = s.bitMode := rfl
@[simp] theorem scrollCursor_cm : (scrollCursor s o).cm = s.cm := rfl
@[simp] theorem scrollCursor_autoScrollMode : (scrollCursor s o).autoScrollMode = s.autoScrollMode := rfl
@[simp] theorem scrollCursor_hhn : (scrollCursor s o).hhn = s.hhn := rfl
@[simp] theorem scrollCursor_ddram : (scrollCursor s o).ddram = s.ddram := rfl
@[simp] theorem scrollCursor_cgram : (scrollCursor s o).cgram = s.cgram := rfl
@[simp] theorem scrollCursor_cursorX : (scrollCursor s o).cursorX = (moveCursor s.cursorX s.cursorY o).1 := rfl
@[simp] theorem scrollCursor_cursorY : (scrollCursor s o).cursorY = (moveCursor s.cursorX s.cursorY o).2 := rfl
@[simp] theorem scrollCursor_scrollOffset : (scrollCursor s o).scrollOffset = s.scrollOffset := rfl
@[simp] theorem scrollCursor_twoLineMode : (scrollCursor s o).twoLineMode = s.twoLineMode := rfl
@[simp] theorem scrollCursor_displayOn : (scrollCursor s o).displayOn = s.displayOn := rfl
@[simp] theorem scrollCursor_cursorOn : (scrollCursor s o).cursorOn = s.cursorOn := rfl
@[simp] theorem scrollCursor_blinkOn : (scrollCursor s o).blinkOn = s.blinkOn := rfl
@[simp] theorem scrollCursor_frame : (scrollCursor s o).frame = s.frame := rfl
@[simp] theorem scrollCursor_pending : (scrollCursor s o).pending = s.pending := rfl
@[simp] theorem scrollCursor_replies : (scrollCursor s o).replies = s.replies := rfl

end scrollCursor

section cursorHome
variable (s : State)

@[simp] theorem cursorHome_cfg : (cursorHome s).cfg = s.cfg := rfl
@[simp] theorem cursorHome_ac : (cursorHome s).ac = s.ac := rfl
@[simp] theorem cursorHome_dr : (cursorHome s).dr = s.dr := rfl
@[simp] theorem cursorHome_ir : (cursorHome s).ir = s.ir := rfl
@[simp] theorem cursorHome_cgramMode : (cursorHome s).cgramMode = s.cgramMode := rfl
@[simp] theorem cursorHome_bitMode : (cursorHome s).bitMode = s.bitMode := rfl
@[simp] theorem cursorHome_cm : (cursorHome s).cm = s.cm := rfl
@[simp] theorem cursorHome_autoScrollMode : (cursorHome s).autoScrollMode = s.autoScrollMode := rfl
@[simp] theorem cursorHome_hhn : (cursorHome s).hhn = s.hhn := rfl
@[simp] theorem cursorHome_ddram : (cursorHome s).ddram = s.ddram := rfl
@[simp] theorem cursorHome_cgram : (cursorHome s).cgram = s.cgram := rfl
@[simp] theorem cursorHome_cursorX : (cursorHome s).cursorX = 0 := rfl
@[simp] theorem cursorHome_cursorY : (cursorHome s).cursorY = 0 := rfl
@[simp] theorem cursorHome_scrollOffset : (cursorHome s).scrollOffset = 0 := rfl
@[simp] theorem cursorHome_twoLineMode : (cursorHome s).twoLineMode = s.twoLineMode := rfl
@[simp] theorem cursorHome_displayOn : (cursorHome s).displayOn = s.displayOn := rfl
@[simp] theorem cursorHome_cursorOn : (cursorHome s).cursorOn = s.cursorOn := rfl
@[simp] theorem cursorHome_blinkOn : (cursorHome s).blinkOn = s.blinkOn := rfl
@[simp] theorem cursorHome_frame : (cursorHome s).frame = s.frame := rfl
@[simp] theorem cursorHome_pending : (cursorHome s).pending = s.pending := rfl
@[simp] theorem cursorHome_replies : (cursorHome s).replies = s.replies := rfl

end cursorHome

section enterDdramMode
variable (s : State)

@[simp] theorem enterDdramMode_cfg : (enterDdramMode s).cfg = s.cfg := rfl
@[simp] theorem enterDdramMode_ac : (enterDdramMode s).ac = s.ac := rfl
@[simp] theorem enterDdramMode_dr : (enterDdramMode s).dr = getDDRAM s.ddram (idx s.twoLineMode s.ac) := rfl
@[simp] theorem enterDdramMode_ir : (enterDdramMode s).ir = s.ir := rfl
@[simp] theorem enterDdramMode_cgramMode : (enterDdramMode s).cgramMode = false := rfl
@[simp] theorem enterDdramMode_bitMode : (enterDdramMode s).bitMode = s.bitMode := rfl
@[simp] theorem enterDdramMode_cm : (enterDdramMode s).cm = s.cm := rfl
@[simp] theorem enterDdramMode_autoScrollMode : (enterDdramMode s).autoScrollMode = s.autoScrollMode := rfl
@[simp] theorem enterDdramMode_hhn : (enterDdramMode s).hhn = s.hhn := rfl
@[simp] theorem enterDdramMode_ddram : (enterDdramMode s).ddram = s.ddram := rfl
@[simp] theorem enterDdramMode_cgram : (enterDdramMode s).cgram = s.cgram := rfl
@[simp] theorem enterDdramMode_cursorX : (enterDdramMode s).cursorX = s.cursorX := rfl
@[simp] theorem enterDdramMode_cursorY : (enterDdramMode s).cursorY = s.cursorY := rfl
@[simp] theorem enterDdramMode_scrollOffset : (enterDdramMode s).scrollOffset = s.scrollOffset := rfl
@[simp] theorem enterDdramMode_twoLineMode : (enterDdramMode s).twoLineMode = s.twoLineMode := rfl
@[simp] theorem enterDdramMode_displayOn : (enterDdramMode s).displayOn = s.displayOn := rfl
@[simp] theorem enterDdramMode_cursorOn : (enterDdramMode s).cursorOn = s.cursorOn := rfl
@[simp] theorem enterDdramMode_blinkOn : (enterDdramMode s).blinkOn = s.blinkOn := rfl
@[simp] theorem enterDdramMode_frame : (enterDdramMode s).frame = s.frame := rfl
@[simp] theorem enterDdramMode_pending : (enterDdramMode s).pending = s.pending := rfl
@[simp] theorem enterDdramMode_replies : (enterDdramMode s).replies = s.replies := rfl

end enterDdramMode

section giveByte
variable (s : State) (v : Byte) (wrap : Byte → Reply)

@[simp] theorem giveByte_cfg : (giveByte s v wrap).cfg = s.cfg := rfl
@[simp] theorem giveByte_ac : (giveByte s v wrap).ac = s.ac := rfl
@[simp] theorem giveByte_dr : (giveByte s v wrap).dr = s.dr := rfl
@[simp] theorem giveByte_ir : (giveByte s v wrap).ir = s.ir := rfl
@[simp] theorem giveByte_cgramMode : (giveByte s v wrap).cgramMode = s.cgramMode := rfl
@[simp] theorem giveByte_bitMode : (giveByte s v wrap).bitMode = s.bitMode := rfl
@[simp] theorem giveByte_cm : (giveByte s v wrap).cm = s.cm := rfl
@[simp] theorem giveByte_autoScrollMode : (giveByte s v wrap).autoScrollMode = s.autoScrollMode := rfl
@[simp] theorem giveByte_hhn : (giveByte s v wrap).hhn = phaseAfterRead s.bitMode s.hhn := rfl
@[simp] theorem giveByte_ddram : (giveByte s v wrap).ddram = s.ddram := rfl
@[simp] theorem giveByte_cgram : (giveByte s v wrap).cgram = s.cgram := rfl
@[simp] theorem giveByte_cursorX : (giveByte s v wrap).cursorX = s.cursorX := rfl
@[simp] theorem giveByte_cursorY : (giveByte s v wrap).cursorY = s.cursorY := rfl
@[simp] theorem giveByte_scrollOffset : (giveByte s v wrap).scrollOffset = s.scrollOffset := rfl
@[simp] theorem giveByte_twoLineMode : (giveByte s v wrap).twoLineMode = s.twoLineMode := rfl
@[simp] theorem giveByte_displayOn : (giveByte s v wrap).displayOn = s.displayOn := rfl
@[simp] theorem giveByte_cursorOn : (giveByte s v wrap).cursorOn = s.cursorOn := rfl
@[simp] theorem giveByte_blinkOn : (giveByte s v wrap).blinkOn = s.blinkOn := rfl
@[simp] theorem giveByte_frame : (giveByte s v wrap).frame = s.frame := rfl
@[simp] theorem giveByte_pending : (giveByte s v wrap).pending = s.pending := rfl
@[simp] theorem giveByte_replies : (giveByte s v wrap).replies = s.replies ++ [wrap (readNibble s.bitMode s.hhn v)] := rfl

end giveByte

section giveSnapshot
variable (s : State)

@[simp] theorem giveSnapshot_cfg : (giveSnapshot s).cfg = s.cfg := rfl
@[simp] theorem giveSnapshot_ac : (giveSnapshot s).ac = s.ac := rfl
@[simp] theorem giveSnapshot_dr : (giveSnapshot s).dr = s.dr := rfl
@[simp] theorem giveSnapshot_ir : (giveSnapshot s).ir = s.ir := rfl
@[simp] theorem giveSnapshot_cgramMode : (giveSnapshot s).cgramMode = s.cgramMode := rfl
@[simp] theorem giveSnapshot_bitMode : (giveSnapshot s).bitMode = s.bitMode := rfl
@[simp] theorem giveSnapshot_cm : (giveSnapshot s).cm = s.cm := rfl
@[simp] theorem giveSnapshot_autoScrollMode : (giveSnapshot s).autoScrollMode = s.autoScrollMode := rfl
@[simp] theorem giveSnapshot_hhn : (giveSnapshot s).hhn = s.hhn := rfl
@[simp] theorem giveSnapshot_ddram : (giveSnapshot s).ddram = s.ddram := rfl
@[simp] theorem giveSnapshot_cgram : (giveSnapshot s).cgram = s.cgram := rfl
@[simp] theorem giveSnapshot_cursorX : (giveSnapshot s).cursorX = s.cursorX := rfl
@[simp] theorem giveSnapshot_cursorY : (giveSnapshot s).cursorY = s.cursorY := rfl
@[simp] theorem giveSnapshot_scrollOffset : (giveSnapshot s).scrollOffset = s.scrollOffset := rfl
@[simp] theorem giveSnapshot_twoLineMode : (giveSnapshot s).twoLineMode = s.twoLineMode := rfl
@[simp] theorem giveSnapshot_displayOn : (giveSnapshot s).displayOn = s.displayOn := rfl
@[simp] theorem giveSnapshot_cursorOn : (giveSnapshot s).cursorOn = s.cursorOn := rfl
@[simp] theorem giveSnapshot_blinkOn : (giveSnapshot s).blinkOn = s.blinkOn := rfl
@[simp] theorem giveSnapshot_frame : (giveSnapshot s).frame = s.frame := rfl
@[simp] theorem giveSnapshot_pending : (giveSnapshot s).pending = s.pending := rfl
@[simp] theorem giveSnapshot_replies : (giveSnapshot s).replies = s.replies ++ [.frameWords (snapshot s.frame)] := rfl

end giveSnapshot

section latchCommand
variable (s : State) (b : Byte)

@[simp] theorem latchCommand_cfg : (latchCommand s b).cfg = s.cfg := rfl
@[simp] theorem latchCommand_ac : (latchCommand s b).ac = s.ac := rfl
@[simp] theorem latchCommand_dr : (latchCommand s b).dr = s.dr := rfl
@[simp] theorem latchCommand_ir : (latchCommand s b).ir = (writeNibble s.bitMode s.hhn b s.ir).updated := rfl
@[simp] theorem latchCommand_cgramMode : (latchCommand s b).cgramMode = s.cgramMode := rfl
@[simp] theorem latchCommand_bitMode : (latchCommand s b).bitMode = s.bitMode := rfl
@[simp] theorem latchCommand_cm : (latchCommand s b).cm = s.cm := rfl
@[simp] theorem latchCommand_autoScrollMode : (latchCommand s b).autoScrollMode = s.autoScrollMode := rfl
@[simp] theorem latchCommand_hhn : (latchCommand s b).hhn = (writeNibble s.bitMode s.hhn b s.ir).hhn := rfl
@[simp] theorem latchCommand_ddram : (latchCommand s b).ddram = s.ddram := rfl
@[simp] theorem latchCommand_cgram : (latchCommand s b).cgram = s.cgram := rfl
@[simp] theorem latchCommand_cursorX : (latchCommand s b).cursorX = s.cursorX := rfl
@[simp] theorem latchCommand_cursorY : (latchCommand s b).cursorY = s.cursorY := rfl
@[simp] theorem latchCommand_scrollOffset : (latchCommand s b).scrollOffset = s.scrollOffset := rfl
@[simp] theorem latchCommand_twoLineMode : (latchCommand s b).twoLineMode = s.twoLineMode := rfl
@[simp] theorem latchCommand_displayOn : (latchCommand s b).displayOn = s.displayOn := rfl
@[simp] theorem latchCommand_cursorOn : (latchCommand s b).cursorOn = s.cursorOn := rfl
@[simp] theorem latchCommand_blinkOn : (latchCommand s b).blinkOn = s.blinkOn := rfl
@[simp] theorem latchCommand_frame : (latchCommand s b).frame = s.frame := rfl
@[simp] theorem latchCommand_pending : (latchCommand s b).pending = s.pending := rfl
@[simp] theorem latchCommand_replies : (latchCommand s b).replies = s.replies := rfl

end latchCommand

section latchData
variable (s : State) (b : Byte)

@[simp] theorem latchData_cfg : (latchData s b).cfg = s.cfg := rfl
@[simp] theorem latchData_ac : (latchData s b).ac = s.ac := rfl
@[simp] theorem latchData_dr : (latchData s b).dr = (writeNibble s.bitMode s.hhn b s.dr).updated := rfl
@[simp] theorem latchData_ir : (latchData s b).ir = s.ir := rfl
@[simp] theorem latchData_cgramMode : (latchData s b).cgramMode = s.cgramMode := rfl
@[simp] theorem latchData_bitMode : (latchData s b).bitMode = s.bitMode := rfl
@[simp] theorem latchData_cm : (latchData s b).cm = s.cm := rfl
@[simp] theorem latchData_autoScrollMode : (latchData s b).autoScrollMode = s.autoScrollMode := rfl
@[simp] theorem latchData_hhn : (latchData s b).hhn = (writeNibble s.bitMode s.hhn b s.dr).hhn := rfl
@[simp] theorem latchData_ddram : (latchData s b).ddram = s.ddram := rfl
@[simp] theorem latchData_cgram : (latchData s b).cgram = s.cgram := rfl
@[simp] theorem latchData_cursorX : (latchData s b).cursorX = s.cursorX := rfl
@[simp] theorem latchData_cursorY : (latchData s b).cursorY = s.cursorY := rfl
@[simp] theorem latchData_scrollOffset : (latchData s b).scrollOffset = s.scrollOffset := rfl
@[simp] theorem latchData_twoLineMode : (latchData s b).twoLineMode = s.twoLineMode := rfl
@[simp] theorem latchData_displayOn : (latchData s b).displayOn = s.displayOn := rfl
@[simp] theorem latchData_cursorOn : (latchData s b).cursorOn = s.cursorOn := rfl
@[simp] theorem latchData_blinkOn : (latchData s b).blinkOn = s.blinkOn := rfl
@[simp] theorem latchData_frame : (latchData s b).frame = s.frame := rfl
@[simp] theorem latchData_pending : (latchData s b).pending = s.pending := rfl
@[simp] theorem latchData_replies : (latchData s b).replies = s.replies := rfl

end latchData

section resetWith
variable (c : Config) (dr ir : Byte) (m : Memory)

@[simp] theorem resetWith_cfg : (State.resetWith c dr ir m).cfg = c := rfl
@[simp] theorem resetWith_ac : (State.resetWith c dr ir m).ac = 0 := rfl
@[simp] theorem resetWith_dr : (State.resetWith c dr ir m).dr = dr := rfl
@[simp] theorem resetWith_ir : (State.resetWith c dr ir m).ir = ir := rfl
@[simp] theorem resetWith_cgramMode : (State.resetWith c dr ir m).cgramMode = false := rfl
@[simp] theorem resetWith_bitMode : (State.resetWith c dr ir m).bitMode = .eight := rfl
@[simp] theorem resetWith_cm : (State.resetWith c dr ir m).cm = .inc := rfl
@[simp] theorem resetWith_autoScrollMode : (State.resetWith c dr ir m).autoScrollMode = false := rfl
@[simp] theorem resetWith_hhn : (State.resetWith c dr ir m).hhn = true := rfl
@[simp] theorem resetWith_ddram : (State.resetWith c dr ir m).ddram = [] := rfl
@[simp] theorem resetWith_cgram : (State.resetWith c dr ir m).cgram = m := rfl
@[simp] theorem resetWith_cursorX : (State.resetWith c dr ir m).cursorX = 0 := rfl
@[simp] theorem resetWith_cursorY : (State.resetWith c dr ir m).cursorY = 0 := rfl
@[simp] theorem resetWith_scrollOffset : (State.resetWith c dr ir m).scrollOffset = 0 := rfl
@[simp] theorem resetWith_twoLineMode : (State.resetWith c dr ir m).twoLineMode = false := rfl
@[simp] theorem resetWith_displayOn : (State.resetWith c dr ir m).displayOn = false := rfl
@[simp] theorem resetWith_cursorOn : (State.resetWith c dr ir m).cursorOn = false := rfl
@[simp] theorem resetWith_blinkOn : (State.resetWith c dr ir m).blinkOn = false := rfl
@[simp] theorem resetWith_frame : (State.resetWith c dr ir m).frame = c.frameReset := rfl
@[simp] theorem resetWith_pending : (State.resetWith c dr ir m).pending = [] := rfl
@[simp] theorem resetWith_replies : (State.resetWith c dr ir m).replies = [] := rfl

end resetWith

end Sys2Proof.Machine
end

