-- ==== Sys2Proof/Laws/Ops.lean ====
section
/-! SUPPORT. What each shared operation can do, said once: the next state it answers in a legal state, and the
fields it leaves alone whenever it answers a next state. -/

namespace Sys2Proof.Machine

theorem andThen_next_iff {o : Result} {k : State → Result} {t : State} :
    andThen o k = .next t ↔ ∃ s, o = .next s ∧ k s = .next t := by
  cases o <;> simp [andThen]

@[simp] theorem andThen_next (s : State) (k : State → Result) : andThen (.next s) k = k s := rfl

@[simp] theorem takeFrame_stored (s : State) (f : List FrameWord) :
    takeFrame s (.stored f) = .next { s with frame := f } := rfl

@[simp] theorem takeFrame_outOfRange (s : State) (n : Nat) (f : List FrameWord) :
    takeFrame s (.outOfRange n f) = .fault (.indexOutOfRange n) := rfl

theorem takeFrame_next_iff {s t : State} {r : StoreResult} :
    takeFrame s r = .next t ↔ ∃ f, r = .stored f ∧ t = { s with frame := f } := by
  cases r <;> simp [eq_comm]

/-- Whenever `setDDRAM` completes, it has written DDRAM and FRAME and nothing else. -/
theorem setDDRAM_frame {s t : State} {i : Int} {v : Byte} (h : setDDRAM s i v = .next t) :
    ∃ f, t = { s with ddram := putDDRAM s.ddram i v, frame := f } := by
  cases i with
  | ofNat i =>
    by_cases hi : i < 80
    · have h : takeFrame _ _ = .next t := (if_pos hi).symm.trans h
      obtain ⟨f, -, rfl⟩ := takeFrame_next_iff.1 h
      exact ⟨f, rfl⟩
    · have h : Host.Outcome.next s = .next t := (if_neg hi).symm.trans h
      cases h
      exact ⟨s.frame, by rw [show putDDRAM s.ddram (.ofNat i) v = s.ddram from if_neg hi]⟩
  | negSucc i =>
    cases h
    exact ⟨s.frame, rfl⟩

/-- Whenever `setCGRAM` completes, it has written CGRAM and FRAME and nothing else. -/
theorem setCGRAM_frame {s t : State} {i : Nat} {v : Byte} (h : setCGRAM s i v = .next t) :
    ∃ f, t = { s with cgram := putCGRAM s.cgram i v, frame := f } := by
  obtain ⟨f, -, rfl⟩ := takeFrame_next_iff.1 h
  exact ⟨f, rfl⟩

/-- Whenever `scrollDisplay` completes, it has written the scroll offset and FRAME and nothing else. -/
theorem scrollDisplay_frame {s t : State} {o : Movement} (h : scrollDisplay s o = .next t) :
    ∃ f, t = { s with scrollOffset := wrapScroll s.scrollOffset o, frame := f } := by
  obtain ⟨f, -, rfl⟩ := takeFrame_next_iff.1 h
  exact ⟨f, rfl⟩

/-- Whenever the stores of the space character complete, they have written DDRAM and FRAME alone. -/
theorem fillCells_frame {is : List Nat} {s t : State} (h : fillCells is s = .next t) :
    ∃ m f, t = { s with ddram := m, frame := f } := by
  induction is generalizing s with
  | nil => cases h; exact ⟨_, _, rfl⟩
  | cons i is ih =>
    obtain ⟨u, h1, h2⟩ := andThen_next_iff.1 h
    obtain ⟨f, rfl⟩ := setDDRAM_frame h1
    have hrest := ih h2
    exact hrest

/-- `setDDRAM` in range stores and renders the cell. -/
theorem setDDRAM_of_lt (s : State) {i : Nat} (hi : i < 80) (v : Byte) :
    setDDRAM s (i : Int) v = takeFrame { s with ddram := Memory.write .ddram s.ddram i v }
      (renderCell s.cfg s.twoLineMode (Memory.write .ddram s.ddram i v) s.cgram i s.frame) := by
  rw [← putDDRAM_of_lt hi v]; exact if_pos hi

/-- `setDDRAM` in a legal state completes. -/
theorem setDDRAM_legal {s : State} (hs : s.Legal) {i : Nat} (hi : i < 80) (v : Byte) :
    ∃ f, renderCell s.cfg s.twoLineMode (Memory.write .ddram s.ddram i v) s.cgram i s.frame = .stored f ∧
      f.length = s.cfg.frameLen ∧
      setDDRAM s (i : Int) v = .next { s with ddram := Memory.write .ddram s.ddram i v, frame := f } := by
  obtain ⟨f, h1, h2, -⟩ := renderCell_stored hs.cfg s.twoLineMode (Memory.write .ddram s.ddram i v)
    s.cgram i hs.frame
  refine ⟨f, h1, h2, ?_⟩
  rw [setDDRAM_of_lt s hi, h1, takeFrame_stored]

/-- `setCGRAM` in a legal state completes. -/
theorem setCGRAM_legal {s : State} (hs : s.Legal) (i : Nat) (v : Byte) :
    ∃ f, redrawAll s.cfg s.twoLineMode s.ddram (putCGRAM s.cgram i v) s.frame = .stored f ∧
      f.length = s.cfg.frameLen ∧
      setCGRAM s i v = .next { s with cgram := putCGRAM s.cgram i v, frame := f } := by
  obtain ⟨f, h1, h2⟩ := redrawAll_stored hs.cfg s.twoLineMode s.ddram (putCGRAM s.cgram i v) hs.frame
  exact ⟨f, h1, h2, by simp only [setCGRAM, h1, takeFrame_stored]⟩

/-- `scrollDisplay` in a legal state completes. -/
theorem scrollDisplay_legal {s : State} (hs : s.Legal) (o : Movement) :
    ∃ f, redrawAll s.cfg s.twoLineMode s.ddram s.cgram s.frame = .stored f ∧
      f.length = s.cfg.frameLen ∧
      scrollDisplay s o = .next { s with scrollOffset := wrapScroll s.scrollOffset o, frame := f } := by
  obtain ⟨f, h1, h2⟩ := redrawAll_stored hs.cfg s.twoLineMode s.ddram s.cgram hs.frame
  exact ⟨f, h1, h2, by simp only [scrollDisplay, h1, takeFrame_stored]⟩

/-- A legal state stays legal under new memories and a new frame of the right form. -/
theorem State.Legal.redrawn {s : State} (hs : s.Legal) {m g : Memory} {f : List FrameWord}
    (hm : Memory.wf .ddram m = true) (hg : Memory.wf .cgram g = true) (hf : f.length = s.cfg.frameLen) :
    ({ s with ddram := m, cgram := g, frame := f } : State).Legal :=
  ⟨hs.cfg, hm, hg, hf, hs.cursorX, hs.scrollOffset⟩

/-- Two cells that own one bit of the frame put their rows at the same place. -/
theorem covers_shift {c : Config} {twoLine : Bool} {i j n b : Nat} (hi : covers c twoLine i n b)
    (hj : covers c twoLine j n b) :
    storeShift c.duty (cellHalfLine twoLine i) = storeShift c.duty (cellHalfLine twoLine j) := by
  obtain ⟨-, hi1, hi2⟩ := hi
  obtain ⟨-, hj1, hj2⟩ := hj
  revert hi1 hi2 hj1 hj2
  cases c.duty <;> cases cellHalfLine twoLine i <;> cases cellHalfLine twoLine j <;>
    simp [storeShift, Duty.fontRows] <;> omega

/-- The stores of the space character in a legal state: they complete, the cells of the list read as the
space, the others as before; a bit that a cell of the list owns shows the space glyph, the others are
kept (41 R115). -/
theorem fillCells_legal (is : List Nat) (his : ∀ i ∈ is, i < 80) {s : State} (hs : s.Legal) :
    ∃ m f, fillCells is s = .next { s with ddram := m, frame := f } ∧
      Memory.wf .ddram m = true ∧ f.length = s.cfg.frameLen ∧
      (∀ a, Memory.read .ddram m a = if a ∈ is then 0x20 else Memory.read .ddram s.ddram a) ∧
      (∀ n b, (∀ i ∈ is, ¬ covers s.cfg s.twoLineMode i n b) →
        (frameWord f n).getLsbD b = (frameWord s.frame n).getLsbD b) ∧
      ∀ n b, ∀ i ∈ is, covers s.cfg s.twoLineMode i n b →
        (frameWord f n).getLsbD b = ((glyph s.cfg s.cgram 0x20).getD
          (b - storeShift s.cfg.duty (cellHalfLine s.twoLineMode i)) 0).getLsbD (4 - n % 5) := by
  induction is generalizing s with
  | nil => exact ⟨s.ddram, s.frame, rfl, hs.ddram, hs.frame, by simp, by simp, by simp⟩
  | cons j js ih =>
    have hj := his j List.mem_cons_self
    have hjs := fun i hi => his i (List.mem_cons_of_mem j hi)
    have hwf := Memory.wf_write hs.ddram (a := j) hj 0x20
    obtain ⟨f₁, h1, h2, hown, hkeep⟩ := renderCell_stored hs.cfg s.twoLineMode
      (Memory.write .ddram s.ddram j 0x20) s.cgram j hs.frame
    have hset : setDDRAM s (j : Int) 0x20 =
        .next { s with ddram := Memory.write .ddram s.ddram j 0x20, frame := f₁ } := by
      rw [setDDRAM_of_lt s hj, h1, takeFrame_stored]
    obtain ⟨m, f, g1, g2, g3, g4, g5, g6⟩ := ih hjs
      (s := { s with ddram := Memory.write .ddram s.ddram j 0x20, frame := f₁ })
      (hs.redrawn hwf hs.cgram h2)
    refine ⟨m, f, ?_, g2, g3, fun a => ?_, fun n b hno => ?_, fun n b i hi hcov => ?_⟩
    · rw [fillCells, hset, andThen_next, g1]
    · rw [g4, Memory.read_write hs.ddram]
      by_cases ha : a = j
      · simp [ha]
      · simp [ha]
    · rw [g5 n b fun i hi => hno i (List.mem_cons_of_mem _ hi), hkeep n b (hno j List.mem_cons_self)]
    · by_cases hlater : ∃ k ∈ js, covers s.cfg s.twoLineMode k n b
      · obtain ⟨k, hk, hck⟩ := hlater
        rw [covers_shift hcov hck]
        exact g6 n b k hk hck
      · have hno : ∀ k ∈ js, ¬ covers s.cfg s.twoLineMode k n b := fun k hk hc => hlater ⟨k, hk, hc⟩
        rcases List.mem_cons.1 hi with rfl | hi'
        · rw [g5 n b hno]
          change (frameWord f₁ n).getLsbD b = _
          rw [hown n b hcov, cellBit, Memory.read_write hs.ddram, if_pos rfl]
        · exact absurd hcov (hno i hi')

end Sys2Proof.Machine
end

