-- ==== Sys2Proof/Laws/PerInstr.lean ====
section
/-! SUPPORT. A statement about every instruction as syntax: its word is of its own row of the opcode table
(30_encoding.md R85). One lemma per constructor. -/

namespace Sys2Proof.Laws.TableRow

/-- The encoded word is of the row that has the instruction's mnemonic, and of that row alone. -/
def Statement (i : Instr) : Prop :=
  (opcodeRows.filter fun r => r.holds (encode i)).map OpcodeRow.mnemonic = [i.mnemonic]

theorem setDdramAddr (a : BitVec 7) : Statement (.setDdramAddr a) := by
  revert a; unfold Statement; decide
theorem setCgramAddr (a : BitVec 6) : Statement (.setCgramAddr a) := by
  revert a; unfold Statement; decide
theorem functionSet (dl n : Bool) (x : BitVec 3) : Statement (.functionSet dl n x) := by
  revert dl n x; unfold Statement; decide
theorem cursorShift (sc rl : Bool) (x : BitVec 2) : Statement (.cursorShift sc rl x) := by
  revert sc rl x; unfold Statement; decide
theorem displayControl (d c b : Bool) : Statement (.displayControl d c b) := by
  revert d c b; unfold Statement; decide
theorem entryModeSet (id s : Bool) : Statement (.entryModeSet id s) := by
  revert id s; unfold Statement; decide
theorem returnHome (x : Bool) : Statement (.returnHome x) := by
  revert x; unfold Statement; decide
theorem clearDisplay : Statement .clearDisplay := by unfold Statement; decide
theorem nop : Statement .nop := by unfold Statement; decide
theorem wrData (d : Byte) : Statement (.wrData d) := by
  revert d; unfold Statement; decide +kernel
theorem rdCmd : Statement .rdCmd := by unfold Statement; decide
theorem rdData : Statement .rdData := by unfold Statement; decide

end Sys2Proof.Laws.TableRow
end

