-- ==== Sys2Proof/Laws/Step.lean ====
section
/-! SUPPORT. The arms of exec one by one, and what one step can do, said once. -/

namespace Sys2Proof.Machine

section arms
variable (s : State)

@[simp] theorem exec_setDdramAddr (a : BitVec 7) : exec (.setDdramAddr a) s = execSetDdramAddr a s := rfl
@[simp] theorem exec_setCgramAddr (a : BitVec 6) : exec (.setCgramAddr a) s = execSetCgramAddr a s := rfl
@[simp] theorem exec_functionSet (dl n : Bool) (x : BitVec 3) :
    exec (.functionSet dl n x) s = execFunctionSet dl n x s := rfl
@[simp] theorem exec_cursorShift (sc rl : Bool) (x : BitVec 2) :
    exec (.cursorShift sc rl x) s = execCursorShift sc rl x s := rfl
@[simp] theorem exec_displayControl (d c b : Bool) :
    exec (.displayControl d c b) s = execDisplayControl d c b s := rfl
@[simp] theorem exec_entryModeSet (id sh : Bool) :
    exec (.entryModeSet id sh) s = execEntryModeSet id sh s := rfl
@[simp] theorem exec_returnHome (x : Bool) : exec (.returnHome x) s = execReturnHome x s := rfl
@[simp] theorem exec_clearDisplay : exec .clearDisplay s = execClearDisplay s := rfl
@[simp] theorem exec_nop : exec .nop s = execNop s := rfl
@[simp] theorem exec_wrData (d : Byte) : exec (.wrData d) s = execWrData d s := rfl
@[simp] theorem exec_rdCmd : exec .rdCmd s = execRdCmd s := rfl
@[simp] theorem exec_rdData : exec .rdData s = execRdData s := rfl

end arms

/-- A snapshot at the head of the queue. -/
theorem step_snapshot {s : State} {q : List Request} (h : s.pending = .snapshot :: q) :
    step s = .next (giveSnapshot { s with pending := q }) := by
  simp only [step, takeRequest, h]

/-- A transaction at the head of the queue. -/
theorem step_transaction {s : State} {t : Transaction} {q : List Request}
    (h : s.pending = .transaction t :: q) : step s = runTransaction t { s with pending := q } := by
  simp only [step, takeRequest, h]

/-- Without a request nothing happens. -/
theorem step_idle {s : State} (h : s.pending = []) : step s = .next s := by
  simp only [step, takeRequest, h]

theorem runTransaction_readCommand (s : State) : runTransaction .readCommand s = exec .rdCmd s := rfl
theorem runTransaction_readData (s : State) : runTransaction .readData s = exec .rdData s := rfl

theorem runTransaction_writeCommand (s : State) (b : Byte) :
    runTransaction (.writeCommand b) s =
      if (writeNibble s.bitMode s.hhn b s.ir).complete
      then exec (decodeCommand (latchCommand s b).ir) (latchCommand s b) else .next (latchCommand s b) := by
  cases hc : (writeNibble s.bitMode s.hhn b s.ir).complete <;>
    simp only [runTransaction, transfer, hc] <;> rfl

theorem runTransaction_writeData (s : State) (b : Byte) :
    runTransaction (.writeData b) s =
      if (writeNibble s.bitMode s.hhn b s.dr).complete
      then exec (.wrData (latchData s b).dr) (latchData s b) else .next (latchData s b) := by
  cases hc : (writeNibble s.bitMode s.hhn b s.dr).complete <;>
    simp only [runTransaction, transfer, hc] <;> rfl

/-- What a step can do: nothing, a snapshot, a transfer that completes no byte, or the instruction of a
completed transaction. -/
theorem step_cases (s : State) :
    (s.pending = [] ∧ step s = .next s) ∨
    (∃ q, s.pending = .snapshot :: q ∧ step s = .next (giveSnapshot { s with pending := q })) ∨
    (∃ q b, s.pending = .transaction (.writeCommand b) :: q ∧
      (step s = .next (latchCommand { s with pending := q } b) ∨
       step s = exec (decodeCommand (latchCommand { s with pending := q } b).ir)
          (latchCommand { s with pending := q } b))) ∨
    (∃ q b, s.pending = .transaction (.writeData b) :: q ∧
      (step s = .next (latchData { s with pending := q } b) ∨
       step s = exec (.wrData (latchData { s with pending := q } b).dr)
          (latchData { s with pending := q } b))) ∨
    (∃ q, s.pending = .transaction .readCommand :: q ∧ step s = exec .rdCmd { s with pending := q }) ∨
    (∃ q, s.pending = .transaction .readData :: q ∧ step s = exec .rdData { s with pending := q }) := by
  cases h : s.pending with
  | nil => exact .inl ⟨rfl, step_idle h⟩
  | cons r q =>
    cases r with
    | snapshot => exact .inr (.inl ⟨q, rfl, step_snapshot h⟩)
    | transaction t =>
      have hstep := step_transaction h
      cases t with
      | writeCommand b =>
        refine .inr (.inr (.inl ⟨q, b, rfl, ?_⟩))
        rw [hstep, runTransaction_writeCommand]
        split
        · exact .inr rfl
        · exact .inl rfl
      | writeData b =>
        refine .inr (.inr (.inr (.inl ⟨q, b, rfl, ?_⟩)))
        rw [hstep, runTransaction_writeData]
        split
        · exact .inr rfl
        · exact .inl rfl
      | readCommand => exact .inr (.inr (.inr (.inr (.inl ⟨q, rfl, hstep⟩))))
      | readData => exact .inr (.inr (.inr (.inr (.inr ⟨q, rfl, hstep⟩))))

/-- A step with a transfer's state, kept legal. -/
theorem State.Legal.latchCommand {s : State} (hs : s.Legal) (b : Byte) : (latchCommand s b).Legal :=
  ⟨hs.cfg, hs.ddram, hs.cgram, hs.frame, hs.cursorX, hs.scrollOffset⟩

theorem State.Legal.latchData {s : State} (hs : s.Legal) (b : Byte) : (latchData s b).Legal :=
  ⟨hs.cfg, hs.ddram, hs.cgram, hs.frame, hs.cursorX, hs.scrollOffset⟩

theorem State.Legal.withPending {s : State} (hs : s.Legal) (q : List Request) :
    ({ s with pending := q } : State).Legal :=
  ⟨hs.cfg, hs.ddram, hs.cgram, hs.frame, hs.cursorX, hs.scrollOffset⟩

/-- `k + 1` steps are one step and then `k`. -/
theorem runSteps_succ (k : Nat) (s : State) : runSteps (k + 1) s = andThen (step s) (runSteps k) := rfl

/-- `runSteps` is the host's run of the core. -/
theorem runSteps_eq_run (k : Nat) (s : State) : runSteps k s = Sys2Proof.core.run k s := by
  induction k generalizing s with
  | zero => rfl
  | succ k ih =>
    have hrun : Sys2Proof.core.run (k + 1) s = andThen (step s) (Sys2Proof.core.run k) := by
      change _ = andThen (Sys2Proof.core.step s) _
      simp only [Host.Core.run]
      cases Sys2Proof.core.step s <;> rfl
    rw [runSteps_succ, hrun]
    cases step s with
    | next t => exact ih t
    | fault e => rfl
    | refused r => rfl

@[simp] theorem runSteps_zero (s : State) : runSteps 0 s = .next s := rfl

theorem runSteps_of_step {s t : State} (h : step s = .next t) (k : Nat) :
    runSteps (k + 1) s = runSteps k t := by
  rw [runSteps_succ, h, andThen_next]

theorem runSteps_one (s : State) : runSteps 1 s = step s := by
  rw [runSteps_succ]; cases step s <;> rfl

end Sys2Proof.Machine
end

