-- ==== Sys2Proof/Tests/Slice0.lean ====
section
/-! SUPPORT. The model's own tests. Expected values are worked from the spec's encodings (30_encoding.md R82)
and test vectors (95_test_vectors.md, groups named at each test). After them, one witness of the hypotheses of
each statement that has hypotheses. -/

open Sys2Proof Sys2Proof.Machine

namespace Sys2Proof.Tests

/-! ## The decoder: one word per constructor, bit by bit from R80 and R82 -/

theorem test_decode_setDdramAddr : decodeTableWord 16 0b0011101000 = some (.setDdramAddr 0x68) := by decide
theorem test_decode_setCgramAddr : decodeTableWord 16 0b0001001000 = some (.setCgramAddr 0x08) := by decide
theorem test_decode_functionSet : decodeTableWord 16 0b0000101101 = some (.functionSet false true 5) := by decide
theorem test_decode_cursorShift : decodeTableWord 16 0b0000011001 = some (.cursorShift true false 1) := by decide
theorem test_decode_displayControl : decodeTableWord 16 0b0000001100 = some (.displayControl true false false) := by
  decide
theorem test_decode_entryModeSet : decodeTableWord 16 0b0000000110 = some (.entryModeSet true false) := by decide
theorem test_decode_returnHome : decodeTableWord 16 0b0000000011 = some (.returnHome true) := by decide
theorem test_decode_clearDisplay : decodeTableWord 16 0b0000000001 = some .clearDisplay := by decide
theorem test_decode_nop : decodeTableWord 16 0b0000000000 = some .nop := by decide
theorem test_decode_wrData : decodeTableWord 16 0b1001101001 = some (.wrData 0x69) := by decide
theorem test_decode_rdCmd : decodeTableWord 16 0b0100000000 = some .rdCmd := by decide
theorem test_decode_rdData : decodeTableWord 16 0b1100000000 = some .rdData := by decide

/-- The decoder rejects by name what is not a transaction word. -/
theorem test_decode_rejects :
    decodeBytes [0x83, 0x04] = .error .notATransactionWord ∧ decodeBytes [0x83] = .error .tooFewBytes ∧
      decodeTableWord 16 0x0400 = none := ⟨rfl, rfl, by decide⟩

/-! ## WellFormed: an ill-formed term for each check -/

/-- The test font FONT_T. -/
def fontRows : Nat → List Nat
  | 0x41 => [0x0E, 0x11, 0x11, 0x11, 0x1F, 0x11, 0x11, 0x00]
  | 0x48 => [0x11, 0x11, 0x11, 0x1F, 0x11, 0x11, 0x11, 0x00]
  | 0x69 => [0x04, 0x00, 0x0C, 0x04, 0x04, 0x04, 0x0E, 0x00]
  | 0x4C => [0x10, 0x10, 0x10, 0x10, 0x10, 0x10, 0x1F, 0x00]
  | _ => []

def pixels (code r : Nat) : BitVec 5 := BitVec.ofNat 5 ((fontRows code).getD r 0)

/-- The configuration of the test vectors. -/
def testConfig : Config := { Config.standard with font := Config.romOf 8 pixels }

theorem testConfig_wf : testConfig.wf = true := Config.standard_wf pixels

theorem smoke_frameLen_short : ({ testConfig with frameLen := 199 } : Config).frameLenOk = false := by decide
theorem smoke_frameLen_long : ({ testConfig with frameLen := 401 } : Config).frameLenOk = false := by decide
theorem smoke_frameReset : ({ testConfig with frameReset := [0] } : Config).frameResetOk = false := by decide
theorem smoke_fontCodes : ({ testConfig with font := [] } : Config).fontCodesOk = false := by decide
theorem smoke_fontRows :
    ({ testConfig with duty := .duty11, font := [[0, 0, 0, 0, 0, 0, 0, 0]] } : Config).fontRowsOk = false := by
  decide
theorem smoke_wf_refuses : ({ testConfig with font := [] } : Config).wf = false := by decide +kernel
theorem smoke_duty : Duty.ofNumber 9 = none ∧ Duty.ofNumber 11 = some .duty11 := by decide

/-! ## Small states -/

/-- After construction with FONT_T, in two-line mode, with the given requests. -/
def fresh (q : List Request) : State :=
  { State.resetWith testConfig 0x77 0x5A [] with twoLineMode := true, pending := q }

/-- The step of one transaction. -/
def after (s : State) (t : Transaction) : Result := step { s with pending := [.transaction t] }

/-- The result is a next state of which `p` holds. -/
def onNext (r : Result) (p : State → Bool) : Bool :=
  match r with
  | .next t => p t
  | _ => false

theorem exists_of_onNext {r : Result} {p : State → Bool} (h : onNext r p = true) :
    ∃ t, r = .next t ∧ p t = true := by
  cases r with
  | next t => exact ⟨t, rfl, h⟩
  | fault e => cases h
  | refused x => cases h

/-- The five frame words of cell `i`. -/
def cellWords (t : State) (i : Nat) : List FrameWord := (List.range 5).map fun k => frameWord t.frame (5 * (i % 40) + k)

/-! ## Operations: groups 20, 40 and the source's inline values -/

theorem test_idx_two_line :
    [0x27, 0x28, 0x40, 0x67, 0x68, 0x7F].map (idx true) = [39, 40, 40, 79, 0, 23] := by decide
theorem test_idx_one_line : [0x28, 0x4F, 0x50, 0x7F].map (idx false) = [40, 79, 0, 47] := by decide
theorem test_step_two_line_forward :
    [0x26, 0x27, 0x30, 0x3F, 0x67, 0x7F].map (stepCounter .pre true .inc) = [0x27, 0x40, 0x40, 0x40, 0, 0] := by
  decide
theorem test_step_two_line_backward :
    [0x00, 0x28, 0x29, 0x40, 0x68, 0x69].map (stepCounter .pre true .dec) =
      [0x67, 0x27, 0x67, 0x27, 0x67, 0x27] := by decide
theorem test_step_flip_post : [0x00, 0x40].map (stepCounter .post true .dec) = [0x27, 0x67] := by decide
theorem test_step_one_line :
    [0x4F, 0x50, 0x7F].map (stepCounter .pre false .inc) = [0, 0, 0] ∧
      [0x00, 0x50, 0x51].map (stepCounter .pre false .dec) = [0x4F, 0x4F, 0x4F] := by decide
theorem test_advance_cgram :
    advanceCgram .inc 0x3F = 0 ∧ advanceCgram .dec 0 = 0x3F ∧ advanceCgram .inc 0x45 = 0x06 := by decide
theorem test_sentinel : getDDRAM [] 80 = 0xFF ∧ getDDRAM [] (-1) = 0xFF ∧ getCGRAM [(7, 0x15)] 0x47 = 0x15 := by
  decide
/-- Vector 40.4: the low half is kept. -/
theorem test_glyph_half_line_one :
    storeGlyphRow testConfig (List.replicate 5 0xA5C3) 0 .one [0x0E, 0x11, 0x11, 0x11, 0x1F, 0x11, 0x11, 0x00] =
      .stored [0x7EC3, 0x11C3, 0x11C3, 0x11C3, 0x7EC3] := by decide +kernel
/-- Vector 40.7: eleven rows, bits 11 to 15 kept. -/
theorem test_glyph_duty_11 :
    storeGlyphRow { testConfig with duty := .duty11 } (List.replicate 5 0xFFFF) 0 .one
        [0x0E, 0x11, 0x11, 0x11, 0x1F, 0x11, 0x11, 0x00, 0x00, 0x00, 0x1F] =
      .stored [0xFC7E, 0xFC11, 0xFC11, 0xFC11, 0xFC7E] := by decide +kernel
/-- Vector 40.10: bit 4 is glyph column 0. -/
theorem test_glyph_leftmost :
    storeGlyphRow testConfig (List.replicate 5 0) 0 .zero [0x10, 0x10, 0x10, 0x10, 0x10, 0x10, 0x1F, 0x00] =
      .stored [0x007F, 0x0040, 0x0040, 0x0040, 0x0040] := by decide +kernel
/-- Group 40, out of range: columns 198 and 199 are written, then IndexOutOfRange(200). -/
theorem test_glyph_out_of_range :
    (match storeGlyphRow { testConfig with frameLen := 200 } (List.replicate 200 0) 198 .zero [0x1F] with
      | .outOfRange n f => decide (n = 200) && decide (f.drop 197 = [0, 1, 1])
      | .stored _ => false) = true := by decide +kernel

/-! ## One step per instruction -/

/-- 43.1. -/
theorem test_setDdramAddr_line_one :
    onNext (after { fresh [] with ddram := [(40, 0x48)] } (.writeCommand 0xC0))
      (fun t => decide (t.ac = 0x40 ∧ t.dr = 0x48 ∧ t.cgramMode = false)) = true := by decide
/-- 43.3: the aliased cell. -/
theorem test_setDdramAddr_alias :
    onNext (after { fresh [] with ddram := [(0, 0x41)] } (.writeCommand 0xE8))
      (fun t => decide (t.ac = 0x68 ∧ t.dr = 0x41)) = true := by decide
/-- 43.4: DR is not refilled. -/
theorem test_setCgramAddr :
    onNext (after (fresh []) (.writeCommand 0x48))
      (fun t => decide (t.ac = 0x08 ∧ t.cgramMode = true ∧ t.dr = 0x77)) = true := by decide
/-- 43.7: bit 2 is ignored. -/
theorem test_functionSet_ignores_bit_2 :
    onNext (after { fresh [] with twoLineMode := false } (.writeCommand 0x3C))
      (fun t => decide (t.bitMode = .eight ∧ t.twoLineMode = true ∧ t.hhn = true)) = true := by decide
/-- 42.3: two nibbles make 0x28. -/
theorem test_functionSet_four_bit :
    onNext (after { fresh [] with bitMode := .four, hhn := false, ir := 0x20, twoLineMode := false }
        (.writeCommand 0x8F))
      (fun t => decide (t.ir = 0x28 ∧ t.bitMode = .four ∧ t.twoLineMode = true ∧ t.hhn = true)) = true := by
  decide
/-- 43.11: no line wrap, DR kept. -/
theorem test_displayScroll :
    onNext (after { fresh [] with ac := 0x27 } (.writeCommand 0x1C))
      (fun t => decide (t.ac = 0x28 ∧ t.scrollOffset = 1 ∧ t.dr = 0x77)) = true := by decide +kernel
/-- 43.13: the cursor alone. -/
theorem test_cursorMove :
    onNext (after (fresh []) (.writeCommand 0x10))
      (fun t => decide (t.cursorX = 39 ∧ t.cursorY = 1 ∧ t.ac = 0)) = true := by decide
/-- 43.16. -/
theorem test_displayControl :
    onNext (after (fresh []) (.writeCommand 0x0C))
      (fun t => decide (t.displayOn = true ∧ t.cursorOn = false ∧ t.blinkOn = false)) = true := by decide
/-- 43.18. -/
theorem test_entryModeSet :
    onNext (after (fresh []) (.writeCommand 0x04))
      (fun t => decide (t.cm = .dec ∧ t.autoScrollMode = false)) = true := by decide
/-- 43.20: CGRAM mode and DR are kept. -/
theorem test_returnHome :
    onNext (after { fresh [] with ac := 0x45, scrollOffset := 3, cursorX := 7, cursorY := 1, cgramMode := true }
        (.writeCommand 0x02))
      (fun t => decide (t.ac = 0 ∧ t.scrollOffset = 0 ∧ t.cursorX = 0 ∧ t.cursorY = 0 ∧ t.cgramMode = true ∧
        t.dr = 0x77)) = true := by decide
/-- 43.22: the text is erased from DDRAM and from the frame. -/
theorem test_clearDisplay :
    onNext (after { fresh [] with
        ddram := [(0, 0x41), (79, 0x48)], frame := List.replicate 400 0xFFFF, cm := .dec, autoScrollMode := true
        ac := 0x45, cgramMode := true } (.writeCommand 0x01))
      (fun t => decide (t.ddram = [] ∧ t.ac = 0 ∧ t.cm = .inc ∧ t.autoScrollMode = false ∧ t.cgramMode = true ∧
        cellWords t 0 = List.replicate 5 0 ∧ cellWords t 79 = List.replicate 5 0)) = true := by decide +kernel
/-- 43.23. -/
theorem test_nop : after (fresh []) (.writeCommand 0x00) = .next { fresh [] with ir := 0x00 } := rfl
/-- 44.1: the wrap to line 1, the drawn glyph, the prefetch. -/
theorem test_wrData_ddram :
    onNext (after { fresh [] with ac := 0x27 } (.writeData 0x41))
      (fun t => decide (t.ddram = [(39, 0x41)] ∧ t.ac = 0x40 ∧ t.dr = 0x20 ∧
        cellWords t 39 = [0x007E, 0x0011, 0x0011, 0x0011, 0x007E])) = true := by decide +kernel
/-- 44.4 with the property S7: cell 5 shows glyph 7, whose row 7 is written. -/
theorem test_wrData_cgram :
    onNext (after { fresh [] with ac := 0x3F, cgramMode := true, ddram := [(5, 0x07)] } (.writeData 0x15))
      (fun t => decide (t.cgram = [(63, 0x15)] ∧ t.ac = 0 ∧ t.dr = 0x15 ∧
        cellWords t 5 = [0x0080, 0, 0x0080, 0, 0x0080])) = true := by decide +kernel
/-- 42.7, the first transfer. -/
theorem test_rdCmd :
    after { fresh [] with bitMode := .four, ac := 0x67 } .readCommand =
      .next { fresh [] with bitMode := .four, ac := 0x67, hhn := false, replies := [.commandByte 0x60] } := rfl
/-- 42.10, the read in the low-phase slot. -/
theorem test_rdData :
    after { fresh [] with bitMode := .four, hhn := false, dr := 0x5A } .readData =
      .next { fresh [] with bitMode := .four, dr := 0x5A, replies := [.dataByte 0xA0] } := rfl
/-- A word placed after reset is the first instruction (CMD 0x38). -/
theorem test_placed_word :
    onNext (step (State.reset.withFetchWord 16 0x038)) (fun t => decide (t.ir = 0x38 ∧ t.twoLineMode = true)) = true := by
  decide

/-! ## Witnesses: a state and operands that meet the hypotheses of each statement -/

/-- `fresh` with the registers that the hypotheses of the statements name. -/
def start (m : BitMode) (hhn cg two : Bool) (cm : Movement) (ac : Address) (q : List Request) : State :=
  { fresh q with bitMode := m, hhn := hhn, cgramMode := cg, twoLineMode := two, cm := cm, ac := ac }

theorem start_legal (m : BitMode) (hhn cg two : Bool) (cm : Movement) (ac : Address) (q : List Request) :
    (start m hhn cg two cm ac q).Legal :=
  ⟨testConfig_wf, rfl, rfl, List.length_replicate, Nat.zero_lt_succ _, Nat.zero_lt_succ _⟩

/-- An Eight-bit core with one command byte pending. -/
def command (b : Byte) : State := start .eight true false true .inc 0 [.transaction (.writeCommand b)]

theorem command_whole (b : Byte) : (command b).wholeCommand b [] := ⟨rfl, rfl⟩

/-- Four-bit states with two transfers pending. -/
def pair (x y : Transaction) : State := start .four true false true .inc 0 (requests [x, y])

/-- A completed instruction in some state: the hypothesis `exec i s = .next t` of the statements about all
instructions. -/
theorem nop_next (s : State) : exec .nop s = .next s := rfl

theorem cgramWrite_next {s : State} (hs : s.Legal) (hm : s.cgramMode = true) (d : Byte) :
    ∃ t, exec (.wrData d) s = .next t := by
  obtain ⟨f, -, -, h⟩ := setCGRAM_legal hs (cgramIndex s.ac) d
  rw [exec_wrData, execWrData, if_pos hm, cgramDataWrite, h, andThen_next]
  exact ⟨_, rfl⟩

theorem displayScroll_next {s : State} (hs : s.Legal) (rl : Bool) (x : BitVec 2) :
    ∃ t, exec (.cursorShift true rl x) s = .next t := by
  obtain ⟨f, -, -, h⟩ := scrollDisplay_legal hs (Movement.ofBit rl)
  simp only [exec_cursorShift, execCursorShift, if_true, h, andThen_next]
  exact ⟨_, rfl⟩

theorem witness_DecodeAndEncodeAgree :
    (Instr.setDdramAddr 0x7F).wf = true ∧ (Instr.wrData 0xFF).wf = true ∧ Instr.rdData.wf = true := by decide

theorem witness_StepRunsTheDecodedTransaction :
    (start .eight true false true .inc 0 (requests [.readCommand])).pending = requests [.readCommand] ∧
    (start .eight true false true .inc 0 (requests [.readData])).pending = requests [.readData] ∧
    ((command 0x38).pending = requests [.writeCommand 0x38] ∧ (command 0x38).bitMode = .eight) ∧
    (∀ hhn, (start .four hhn false true .inc 0 (requests [.writeCommand 0x20])).hhn = hhn ∧
      (start .four hhn false true .inc 0 (requests [.writeCommand 0x20])).bitMode = .four) ∧
    (start .eight true false true .inc 0 (requests [.writeData 0x41])).bitMode = .eight ∧
    ∀ hhn, (start .four hhn false true .inc 0 (requests [.writeData 0x40])).hhn = hhn ∧
      (start .four hhn false true .inc 0 (requests [.writeData 0x40])).bitMode = .four :=
  ⟨rfl, rfl, ⟨rfl, rfl⟩, fun _ => ⟨rfl, rfl⟩, rfl, fun _ => ⟨rfl, rfl⟩⟩

theorem witness_NoRequestNoChange : (fresh []).pending = [] := rfl

/-- Both ends of every range of command bytes. -/
theorem witness_HighestSetBitSelectsTheCommand :
    (∀ b, (command b).wholeCommand b []) ∧
    (0x80 ≤ (0x80 : Byte).toNat ∧ 0x80 ≤ (0xFF : Byte).toNat) ∧
    (0x40 ≤ (0x40 : Byte).toNat ∧ (0x7F : Byte).toNat < 0x80) ∧
    (0x20 ≤ (0x20 : Byte).toNat ∧ (0x3F : Byte).toNat < 0x40) ∧
    (0x10 ≤ (0x10 : Byte).toNat ∧ (0x1F : Byte).toNat < 0x20) ∧
    (0x08 ≤ (0x08 : Byte).toNat ∧ (0x0F : Byte).toNat < 0x10) ∧
    (0x04 ≤ (0x04 : Byte).toNat ∧ (0x07 : Byte).toNat < 0x08) ∧
    (0x02 ≤ (0x02 : Byte).toNat ∧ (0x03 : Byte).toNat < 0x04) ∧
    (0x01 : Byte).toNat = 1 ∧ (0x00 : Byte).toNat = 0 := ⟨command_whole, by decide⟩

theorem witness_SnapshotGivesTheWholeFrame :
    (start .eight true false true .inc 0 [.snapshot]).Legal ∧
      (start .eight true false true .inc 0 [.snapshot]).pending = .snapshot :: [] := ⟨start_legal .., rfl⟩

theorem witness_PhaseMovesOncePerTransfer :
    (∃ t, step (start .four true false true .inc 0 (requests [.readData])) = .next t) ∧
    (∃ t, step (command 0x38) = .next t) ∧ decodeCommand 0x38 = .functionSet true true 0 :=
  ⟨⟨_, rfl⟩, ⟨_, rfl⟩, by decide⟩

theorem witness_NibblePairActsAsTheWholeByte :
    (pair (.writeCommand 0xC0) (.writeCommand 0x00)).bitMode = .four ∧
    (pair (.writeCommand 0xC0) (.writeCommand 0x00)).hhn = true ∧
    (pair (.writeCommand 0xC0) (.writeCommand 0x00)).pending =
      requests [.writeCommand 0xC0, .writeCommand 0x00] ++ [] ∧
    (pair (.writeData 0x40) (.writeData 0x80)).pending = requests [.writeData 0x40, .writeData 0x80] ++ [] :=
  ⟨rfl, rfl, rfl, rfl⟩

theorem witness_MixedPairUsesTheSecondAccumulator :
    (pair (.writeCommand 0xC0) (.writeData 0x10)).pending = requests [.writeCommand 0xC0, .writeData 0x10] ++ [] ∧
    (pair (.writeData 0x40) (.writeCommand 0x10)).pending = requests [.writeData 0x40, .writeCommand 0x10] ++ [] ∧
    (pair (.writeCommand 0xC0) .readData).pending = requests [.writeCommand 0xC0, .readData] ++ [] ∧
    (pair (.writeCommand 0xC0) .readData).bitMode = .four ∧ (pair (.writeCommand 0xC0) .readData).hhn = true :=
  ⟨rfl, rfl, rfl, rfl, rfl⟩

/-- The lost phase: Four-bit mode with the phase at the low nibble. -/
theorem witness_ThreeFunctionSetsRecoverThePhase :
    (start .four false false true .inc 0
      (requests [.writeCommand 0x30, .writeCommand 0x30, .writeCommand 0x30])).Legal := start_legal ..

theorem witness_ReadsShowTheRegisters :
    (start .eight true false true .inc 0 []).bitMode = .eight ∧
    (∀ hhn, (start .four hhn false true .inc 0 []).bitMode = .four ∧
      (start .four hhn false true .inc 0 []).hhn = hhn) := ⟨rfl, fun _ => ⟨rfl, rfl⟩⟩

theorem witness_FourBitReadsRebuildTheValue :
    (pair .readCommand .readCommand).pending = requests [.readCommand, .readCommand] ++ [] ∧
    (pair .readData .readData).pending = requests [.readData, .readData] ++ [] ∧
    (pair .readData .readData).bitMode = .four ∧ (pair .readData .readData).hhn = true := ⟨rfl, rfl, rfl, rfl⟩

theorem witness_SetDdramAddressEffect :
    ((command 0x80).wholeCommand 0x80 [] ∧ 0x80 ≤ (0x80 : Byte).toNat) ∧
    (command 0xFF).wholeCommand 0xFF [] ∧ 0x80 ≤ (0xFF : Byte).toNat :=
  ⟨⟨command_whole _, by decide⟩, command_whole _, by decide⟩

theorem witness_SetCgramAddressEffect :
    ((command 0x40).wholeCommand 0x40 [] ∧ 0x40 ≤ (0x40 : Byte).toNat ∧ (0x40 : Byte).toNat < 0x80) ∧
    (command 0x7F).wholeCommand 0x7F [] ∧ 0x40 ≤ (0x7F : Byte).toNat ∧ (0x7F : Byte).toNat < 0x80 :=
  ⟨⟨command_whole _, by decide⟩, command_whole _, by decide⟩

theorem witness_FunctionSetEffect :
    ((command 0x20).wholeCommand 0x20 [] ∧ 0x20 ≤ (0x20 : Byte).toNat ∧ (0x20 : Byte).toNat < 0x40) ∧
    (command 0x3F).wholeCommand 0x3F [] ∧ 0x20 ≤ (0x3F : Byte).toNat ∧ (0x3F : Byte).toNat < 0x40 :=
  ⟨⟨command_whole _, by decide⟩, command_whole _, by decide⟩

theorem witness_CursorMoveEffect :
    (fresh []).cursorX < 40 ∧ ({ fresh [] with cursorX := 39 } : State).cursorX < 40 := by
  constructor <;> exact Nat.lt_of_sub_pos (Nat.zero_lt_succ _)

theorem witness_DisplayScrollEffect :
    (start .eight true false true .inc 0x27 []).Legal ∧ (start .eight true true false .dec 0x7F []).Legal :=
  ⟨start_legal .., start_legal ..⟩

theorem witness_DisplayControlEffect :
    ((command 0x08).wholeCommand 0x08 [] ∧ 0x08 ≤ (0x08 : Byte).toNat ∧ (0x08 : Byte).toNat < 0x10) ∧
    (command 0x0F).wholeCommand 0x0F [] ∧ 0x08 ≤ (0x0F : Byte).toNat ∧ (0x0F : Byte).toNat < 0x10 :=
  ⟨⟨command_whole _, by decide⟩, command_whole _, by decide⟩

theorem witness_EntryModeSetEffect :
    ((command 0x04).wholeCommand 0x04 [] ∧ 0x04 ≤ (0x04 : Byte).toNat ∧ (0x04 : Byte).toNat < 0x08) ∧
    (command 0x07).wholeCommand 0x07 [] ∧ 0x04 ≤ (0x07 : Byte).toNat ∧ (0x07 : Byte).toNat < 0x08 :=
  ⟨⟨command_whole _, by decide⟩, command_whole _, by decide⟩

theorem witness_ReturnHomeEffect :
    ((command 0x02).wholeCommand 0x02 [] ∧ 0x02 ≤ (0x02 : Byte).toNat ∧ (0x02 : Byte).toNat < 0x04) ∧
    (command 0x03).wholeCommand 0x03 [] ∧ 0x02 ≤ (0x03 : Byte).toNat ∧ (0x03 : Byte).toNat < 0x04 :=
  ⟨⟨command_whole _, by decide⟩, command_whole _, by decide⟩

theorem witness_ClearDisplayEffect : (start .eight true true true .dec 0x45 []).Legal := start_legal ..

theorem witness_NopEffect : (command 0x00).wholeCommand 0x00 [] := command_whole _

/-- In a band, at its end, and outside the bands. -/
theorem witness_DdramDataWriteEffect :
    ∀ ac, (start .eight true false true .inc ac []).Legal ∧
      (start .eight true false true .inc ac []).cgramMode = false := fun _ => ⟨start_legal .., rfl⟩

theorem witness_CgramDataWriteEffect :
    ∀ ac, (start .eight true true true .inc ac []).Legal ∧
      (start .eight true true true .inc ac []).cgramMode = true := fun _ => ⟨start_legal .., rfl⟩

/-- Two-line mode at the end of line 0, and one-line mode outside the band. -/
theorem witness_DataWriteLeavesTheCounterInABand :
    (∃ t, exec (.wrData 0x41) (start .eight true false true .inc 0x27 []) = .next t ∧ inBand true 0x27 = true) ∧
    ∃ t, exec (.wrData 0x41) (start .eight true false false .dec 0x7F []) = .next t := by
  obtain ⟨t, ht, -⟩ := exists_of_onNext (r := exec (.wrData 0x41) (start .eight true false true .inc 0x27 []))
    (p := fun _ => true) (by decide +kernel)
  obtain ⟨u, hu, -⟩ := exists_of_onNext (r := exec (.wrData 0x41) (start .eight true false false .dec 0x7F []))
    (p := fun _ => true) (by decide +kernel)
  exact ⟨⟨t, ht, by decide⟩, u, hu⟩

theorem witness_WriteThenReadReturnsTheByte :
    (start .eight true false true .dec 0
      (requests [.writeCommand 0x85, .writeData 0x41, .writeCommand 0x85, .readData])).Legal ∧
    (start .four true true false .inc 0
      (requests [.writeCommand 0x85, .writeCommand 0x50, .writeData 0x41, .writeData 0x10, .writeCommand 0x85,
        .writeCommand 0x50, .readData, .readData])).Legal ∧
    (0x85 : Byte) = 1#1 ++ (0x05 : BitVec 7) ∧ (0x85 : Byte) <<< 4 = 0x50 ∧ (0x41 : Byte) <<< 4 = 0x10 :=
  ⟨start_legal .., start_legal .., by decide, by decide, by decide⟩

theorem witness_EightyWritesVisitEveryCellOnce :
    (start .eight true false true .inc 0 (requests ((List.replicate 80 0x41).map .writeData))).Legal ∧
    (start .eight true false true .dec 0x67 (requests ((List.replicate 80 0x41).map .writeData))).Legal ∧
    (start .eight true false false .dec 0x4F (requests ((List.replicate 80 0x41).map .writeData))).Legal ∧
    testConfig.stepFlip = .pre ∧ (List.replicate 80 (0x41 : Byte)).length = 80 :=
  ⟨start_legal .., start_legal .., start_legal .., rfl, List.length_replicate⟩

theorem witness_GlyphStoreRewritesTheBitsUnderTheMask :
    testConfig.frameReset.length = testConfig.frameLen ∧ 195 + 5 ≤ testConfig.frameLen :=
  ⟨List.length_replicate, show 200 ≤ 400 by decide⟩

/-- The last column inside, and the first outside. -/
theorem witness_StoreColumnMergesOneWord :
    testConfig.frameReset.length = testConfig.frameLen ∧ 399 < testConfig.frameLen ∧ testConfig.frameLen ≤ 400 :=
  ⟨List.length_replicate, show 399 < 400 by decide, Nat.le_refl _⟩

/-- The last cell position inside the frame, and a column store there. -/
theorem witness_StoresAreMaskedMerges :
    testConfig.frameReset.length = testConfig.frameLen ∧ 399 < testConfig.frameLen ∧ 395 + 5 ≤ testConfig.frameLen :=
  ⟨List.length_replicate, show 399 < 400 by decide, show 400 ≤ 400 by decide⟩

/-- A (never legal) state with a frame of 3 words: cell 0 leaves it at column 3, cell 1 at column 5. -/
def shortFrame (ac : Address) (q : List Request) : State :=
  { start .eight true false true .inc ac q with
    cfg := { testConfig with frameLen := 3 }, frame := List.replicate 3 0 }

/-- Glyphs at 198 and at 205 in a frame of 200 words; cells 0 and 1 in a frame of 3, with the data byte
pending. -/
theorem witness_GlyphStoreFailsAtTheFirstColumnOutside :
    (List.replicate 200 (0 : FrameWord)).length = ({ testConfig with frameLen := 200 } : Config).frameLen ∧
    (200 < 198 + 5 ∧ 200 < 205 + 5) ∧
    (0 < 80 ∧ (shortFrame 0 []).cfg.frameLen < 5 * (0 % 40) + 5) ∧
    ((shortFrame 0 (requests [.writeData 0x41])).cgramMode = false ∧
      (shortFrame 0 (requests [.writeData 0x41])).bitMode = .eight ∧
      (shortFrame 0 (requests [.writeData 0x41])).pending = requests [.writeData 0x41] ++ [] ∧
      (shortFrame 0 []).cfg.frameLen < 5 * (tableCell true 0 % 40) + 5) ∧
    (shortFrame 1 []).cfg.frameLen < 5 * (tableCell true 1 % 40) + 5 :=
  ⟨List.length_replicate, by decide, ⟨by decide, show 3 < 5 by decide⟩, ⟨rfl, rfl, rfl, show 3 < 5 by decide⟩,
    show 3 < 10 by decide⟩

theorem witness_ShortFrameFaultsEveryRedraw :
    (shortFrame 0 []).cfg.frameLen < 200 ∧ redraws (.cursorShift true false 0) (shortFrame 0 []) = true ∧
      (shortFrame 0 []).cfg.redrawOrder = .ascending ∧
      ({ testConfig with frameLen := 199, redrawOrder := .descending } : Config).frameLen < 200 :=
  ⟨show 3 < 200 by decide, rfl, rfl, show 199 < 200 by decide⟩

theorem witness_GlyphSelection : testConfig.wf = true ∧ 7 < testConfig.duty.fontRows ∧ 4 < 5 :=
  ⟨testConfig_wf, show 7 < 8 by decide, by decide⟩

theorem witness_RenderCellDrawsItsGlyph :
    (start .eight true false true .inc 0 []).Legal ∧ 79 < 80 ∧ 7 < testConfig.duty.fontRows ∧
      cellOwns .duty16 true 79 195 8 = true ∧ cellOwns .duty16 true 79 195 7 = false :=
  ⟨start_legal .., by decide, show 7 < 8 by decide, by decide, by decide⟩

theorem witness_FullRedrawShowsEveryCell :
    ∃ t, (start .eight true true true .inc 0 []).Legal ∧ testConfig.duty = .duty16 ∧
      redraws (.wrData 0x1F) (start .eight true true true .inc 0 []) = true ∧
      exec (.wrData 0x1F) (start .eight true true true .inc 0 []) = .next t := by
  obtain ⟨t, ht⟩ := cgramWrite_next (start_legal .eight true true true .inc 0 []) rfl 0x1F
  exact ⟨t, start_legal .., rfl, rfl, ht⟩

/-- One-line mode, by a display scroll. -/
theorem witness_OverlaidRedrawShowsTheLastCells :
    ∃ t, (start .eight true false false .inc 0 []).Legal ∧
      ¬ (testConfig.duty = .duty16 ∧ (start .eight true false false .inc 0 []).twoLineMode = true) ∧
      redraws (.cursorShift true true 0) (start .eight true false false .inc 0 []) = true ∧
      exec (.cursorShift true true 0) (start .eight true false false .inc 0 []) = .next t ∧
      testConfig.redrawOrder = .ascending := by
  obtain ⟨t, ht⟩ := displayScroll_next (start_legal .eight true false false .inc 0 []) true 0
  exact ⟨t, start_legal .., fun h => Bool.false_ne_true h.2, rfl, ht, rfl⟩

theorem witness_OnlyTheTriggersTouchTheFrame :
    ∃ t, exec (.wrData 0x41) (start .eight true false true .inc 0 []) = .next t ∧
      t.frame ≠ (start .eight true false true .inc 0 []).frame := by
  obtain ⟨t, ht, hp⟩ := exists_of_onNext (r := exec (.wrData 0x41) (start .eight true false true .inc 0 []))
    (p := fun t => decide (t.frame ≠ (start .eight true false true .inc 0 []).frame)) (by decide +kernel)
  exact ⟨t, ht, of_decide_eq_true hp⟩

/-- Bit 16 of no word, word 200, and for duty 8 bit 8. -/
theorem witness_UndrawableBitsNeverChange :
    (command 0x00).Legal ∧ (∃ t, step (command 0x00) = .next t) ∧
      drawable .duty16 200 0 = false ∧ drawable .duty8 0 8 = false ∧ drawable .duty8 199 7 = true :=
  ⟨start_legal .., ⟨_, rfl⟩, by decide, by decide, by decide⟩

theorem witness_AddressCounterTable : ∃ s t, exec .nop s = .next t := ⟨_, _, nop_next (fresh [])⟩

theorem witness_RegisterBankWriters :
    ∃ t, exec (.entryModeSet false true) (fresh []) = .next t := ⟨_, rfl⟩

theorem witness_OtherRegisterWriters :
    ∃ t, exec (.cursorShift false true 0) (fresh []) = .next t ∧
      (t.cursorX, t.cursorY) ≠ ((fresh []).cursorX, (fresh []).cursorY) := ⟨_, rfl, by decide⟩

theorem witness_OnlyStoresChangeMemory :
    ∃ t, exec (.setDdramAddr 0) (fresh []) = .next t ∧ Instr.setDdramAddr 0 ≠ .clearDisplay := ⟨_, rfl, by decide⟩

theorem witness_ConfigurationNeverChanges :
    (∃ s, construct 16 testConfig 0 0 [] = .next s) ∧ ∃ t, step (command 0x38) = .next t := by
  obtain ⟨s, hs, -⟩ := exists_of_onNext (r := construct 16 testConfig 0 0 []) (p := fun _ => true)
    (by decide +kernel)
  exact ⟨⟨s, hs⟩, _, rfl⟩

/-- Index 79 in range, 80 and -1 outside. -/
theorem witness_GuardedMemoryAccess :
    ((80 : Int) < 0 ∨ (80 : Int) ≤ 80) ∧ ((-1 : Int) < 0 ∨ (80 : Int) ≤ -1) ∧ 79 < 80 ∧
      (start .eight true false true .inc 0 []).Legal := ⟨by decide, by decide, by decide, start_legal ..⟩

theorem witness_UnobservedStateStaysUnobserved :
    (command 0x1C).sameButUnobserved { command 0x1C with displayOn := true, cursorX := 7, scrollOffset := 39 } := rfl

theorem witness_CgramCannotBeReadOnTheBus :
    (command 0x38).sameButGlyphs { command 0x38 with cgram := [(0, 0x1F)] } ∧
      ∀ q, (command 0x38).pending ≠ .snapshot :: q := ⟨rfl, by intro q h; cases h⟩

theorem witness_StepKeepsLegal : (command 0x38).Legal ∧ ∃ t, step (command 0x38) = .next t :=
  ⟨start_legal .., _, rfl⟩

theorem witness_EveryTransactionCompletes : (command 0x38).Legal := start_legal ..

theorem witness_ResetIsLegal : testConfig.wf = true ∧ Memory.wf .cgram [(63, 0xFF)] = true :=
  ⟨testConfig_wf, by decide⟩

theorem testConfig_rows : ∀ g ∈ testConfig.font, g.length = if 16 = 11 then 11 else 8 := fun g hg =>
  (((Config.wf_iff _).1 testConfig_wf).2.2.2 g hg).trans rfl

/-- A good geometry, and a bad one: duty 9. -/
theorem witness_ConstructionFailsOnBadGeometryOnly :
    ((16 = 8 ∨ 16 = 11 ∨ 16 = 16) ∧ (200 ≤ testConfig.frameLen ∧ testConfig.frameLen ≤ 400) ∧
      testConfig.frameReset.length = testConfig.frameLen ∧ testConfig.font.length = 224 ∧
      ∀ g ∈ testConfig.font, g.length = if 16 = 11 then 11 else 8) ∧
    ¬ (9 = 8 ∨ 9 = 11 ∨ 9 = 16) :=
  ⟨⟨by decide, ((Config.wf_iff _).1 testConfig_wf).1, ((Config.wf_iff _).1 testConfig_wf).2.1,
    ((Config.wf_iff _).1 testConfig_wf).2.2.1, testConfig_rows⟩, by decide⟩

theorem witness_ResetValuesAndFirstReads : ∃ s, construct 16 testConfig 0x77 0x5A [] = .next s := by
  obtain ⟨s, hs, -⟩ := exists_of_onNext (r := construct 16 testConfig 0x77 0x5A []) (p := fun _ => true)
    (by decide +kernel)
  exact ⟨s, hs⟩

end Sys2Proof.Tests
end

namespace Sys2Proof.Machine

/-- Settles O4: the idle case of the step, as the model's own law `step_idle` says it. -/
theorem noRequestNoChange : Obligations.NoRequestNoChange :=
  fun _ hidle => step_idle hidle

end Sys2Proof.Machine

namespace Sys2Proof.Machine

/-! ### Two runs side by side: how `bothAnswer` passes through the operations -/

/-- `bothAnswer` for a sequence: the first halves answer alike, and the second halves from related states. -/
theorem bothAnswer.andThen {rel : State → State → Prop} {o o' : Result} {k k' : State → Result}
    (ho : bothAnswer rel o o') (hk : ∀ s t, rel s t → bothAnswer rel (k s) (k' t)) :
    bothAnswer rel (andThen o k) (andThen o' k') := by
  cases o with
  | next s =>
    cases o' with
    | next t => exact hk s t ho
    | fault _ | refused _ => exact ho.elim
  | fault e =>
    cases o' with
    | fault e' => exact ho
    | next _ | refused _ => exact ho.elim
  | refused x =>
    cases o' with
    | refused y => exact ho
    | next _ | fault _ => exact ho.elim

/-- `bothAnswer` for a branch that both runs decide alike. -/
theorem bothAnswer.ite {rel : State → State → Prop} {p : Prop} [Decidable p] {a b a' b' : Result}
    (ha : bothAnswer rel a a') (hb : bothAnswer rel b b') :
    bothAnswer rel (if p then a else b) (if p then a' else b') := by
  split
  · exact ha
  · exact hb

/-- One store result taken over into two states: both go on with its frame, or both fault alike. -/
theorem bothAnswer_takeFrame {rel : State → State → Prop} {s t : State} (r : StoreResult)
    (h : ∀ f, rel { s with frame := f } { t with frame := f }) :
    bothAnswer rel (takeFrame s r) (takeFrame t r) := by
  cases r with
  | stored f => exact h f
  | outOfRange n f => rfl

/-- Outside the 80 cells `setDDRAM` does nothing at all (20_memory.md R55). -/
theorem setDDRAM_of_ge (s : State) {i : Nat} (hi : 80 ≤ i) (v : Byte) : setDDRAM s (i : Int) v = .next s :=
  if_neg (Nat.not_lt.2 hi)

/-! ### The unobserved registers (10_state.md R22, R27, R30) -/

/-- `s` with the display flags, the cursor, the scroll offset and the auto-scroll flag of `u`. -/
def State.withUnobserved (s u : State) : State :=
  { s with
    displayOn := u.displayOn, cursorOn := u.cursorOn, blinkOn := u.blinkOn
    cursorX := u.cursorX, cursorY := u.cursorY, scrollOffset := u.scrollOffset
    autoScrollMode := u.autoScrollMode }

/-- The form of the relation that can be substituted: `t` is `s` under some values of the unobserved
registers. What an operation computes from `t` is then the very term it computes from `s`, wherever it reads
none of those registers. -/
theorem State.sameButUnobserved_iff {s t : State} :
    s.sameButUnobserved t ↔ ∃ u, t = s.withUnobserved u :=
  ⟨fun h => ⟨t, h⟩, fun ⟨_, h⟩ => by subst h; rfl⟩

/-- A sequence that ends in a mere update `g` of the state: `g` must keep the relation. -/
theorem bothAnswer.andThen_next_sameButUnobserved {o o' : Result} {g : State → State}
    (ho : bothAnswer State.sameButUnobserved o o')
    (hg : ∀ s u : State, (g s).sameButUnobserved (g (s.withUnobserved u))) :
    bothAnswer State.sameButUnobserved (Machine.andThen o fun s => .next (g s))
      (Machine.andThen o' fun s => .next (g s)) :=
  ho.andThen fun s t h => by
    obtain ⟨u, rfl⟩ := State.sameButUnobserved_iff.1 h
    exact hg s u

theorem setDDRAM_sameButUnobserved {s t : State} (h : s.sameButUnobserved t) (i : Nat) (v : Byte) :
    bothAnswer State.sameButUnobserved (setDDRAM s i v) (setDDRAM t i v) := by
  rcases Nat.lt_or_ge i 80 with hi | hi
  · obtain ⟨u, rfl⟩ := State.sameButUnobserved_iff.1 h
    rw [setDDRAM_of_lt s hi, setDDRAM_of_lt _ hi]
    exact bothAnswer_takeFrame _ fun f => rfl
  · rw [setDDRAM_of_ge s hi, setDDRAM_of_ge t hi]
    exact h

theorem setCGRAM_sameButUnobserved {s t : State} (h : s.sameButUnobserved t) (i : Nat) (v : Byte) :
    bothAnswer State.sameButUnobserved (setCGRAM s i v) (setCGRAM t i v) := by
  obtain ⟨u, rfl⟩ := State.sameButUnobserved_iff.1 h
  exact bothAnswer_takeFrame _ fun f => rfl

/-- The redraw of a display scroll does not read the offset it sets (41 R112, D12). -/
theorem scrollDisplay_sameButUnobserved {s t : State} (h : s.sameButUnobserved t) (o : Movement) :
    bothAnswer State.sameButUnobserved (scrollDisplay s o) (scrollDisplay t o) := by
  obtain ⟨u, rfl⟩ := State.sameButUnobserved_iff.1 h
  exact bothAnswer_takeFrame _ fun f => rfl

theorem fillCells_sameButUnobserved (is : List Nat) {s t : State} (h : s.sameButUnobserved t) :
    bothAnswer State.sameButUnobserved (fillCells is s) (fillCells is t) := by
  induction is generalizing s t with
  | nil => exact h
  | cons i is ih => exact (setDDRAM_sameButUnobserved h i 0x20).andThen fun _ _ => ih

theorem execClearDisplay_sameButUnobserved {s t : State} (h : s.sameButUnobserved t) :
    bothAnswer State.sameButUnobserved (execClearDisplay s) (execClearDisplay t) := by
  obtain ⟨u, rfl⟩ := State.sameButUnobserved_iff.1 h
  exact (fillCells_sameButUnobserved (List.range 80) (by rfl)).andThen_next_sameButUnobserved fun _ _ => rfl

theorem ddramDataWrite_sameButUnobserved {s t : State} (h : s.sameButUnobserved t) (d : Byte) :
    bothAnswer State.sameButUnobserved (ddramDataWrite d s) (ddramDataWrite d t) := by
  obtain ⟨u, rfl⟩ := State.sameButUnobserved_iff.1 h
  exact (setDDRAM_sameButUnobserved h _ d).andThen_next_sameButUnobserved fun _ _ => rfl

theorem cgramDataWrite_sameButUnobserved {s t : State} (h : s.sameButUnobserved t) (d : Byte) :
    bothAnswer State.sameButUnobserved (cgramDataWrite d s) (cgramDataWrite d t) := by
  obtain ⟨u, rfl⟩ := State.sameButUnobserved_iff.1 h
  exact (setCGRAM_sameButUnobserved h _ d).andThen_next_sameButUnobserved fun _ _ => rfl

theorem execWrData_sameButUnobserved {s t : State} (h : s.sameButUnobserved t) (d : Byte) :
    bothAnswer State.sameButUnobserved (execWrData d s) (execWrData d t) := by
  have hc := cgramDataWrite_sameButUnobserved h d
  have hd := ddramDataWrite_sameButUnobserved h d
  obtain ⟨u, rfl⟩ := State.sameButUnobserved_iff.1 h
  exact hc.ite hd

theorem execCursorShift_sameButUnobserved {s t : State} (h : s.sameButUnobserved t) (sc rl : Bool)
    (x : BitVec 2) :
    bothAnswer State.sameButUnobserved (execCursorShift sc rl x s) (execCursorShift sc rl x t) := by
  cases sc with
  | true => exact (scrollDisplay_sameButUnobserved h _).andThen_next_sameButUnobserved fun _ _ => rfl
  | false =>
    obtain ⟨u, rfl⟩ := State.sameButUnobserved_iff.1 h
    rfl

/-- Every instruction keeps the relation: those that store or redraw by the laws above, the others
because the fields they compute read none of the unobserved registers. -/
theorem exec_sameButUnobserved {s t : State} (h : s.sameButUnobserved t) (i : Instr) :
    bothAnswer State.sameButUnobserved (exec i s) (exec i t) := by
  cases i with
  | clearDisplay => exact execClearDisplay_sameButUnobserved h
  | wrData d => exact execWrData_sameButUnobserved h d
  | cursorShift sc rl x => exact execCursorShift_sameButUnobserved h sc rl x
  | _ =>
    obtain ⟨u, rfl⟩ := State.sameButUnobserved_iff.1 h
    rfl

/-- A transaction latches the same byte in both states and then runs the same instruction, or none. -/
theorem runTransaction_sameButUnobserved {s t : State} (h : s.sameButUnobserved t) (tr : Transaction) :
    bothAnswer State.sameButUnobserved (runTransaction tr s) (runTransaction tr t) := by
  obtain ⟨u, rfl⟩ := State.sameButUnobserved_iff.1 h
  cases tr with
  | readCommand => exact exec_sameButUnobserved h .rdCmd
  | readData => exact exec_sameButUnobserved h .rdData
  | writeCommand b =>
    have hl : (latchCommand s b).sameButUnobserved (latchCommand (s.withUnobserved u) b) := rfl
    rw [runTransaction_writeCommand, runTransaction_writeCommand]
    exact (exec_sameButUnobserved hl _).ite hl
  | writeData b =>
    have hl : (latchData s b).sameButUnobserved (latchData (s.withUnobserved u) b) := rfl
    rw [runTransaction_writeData, runTransaction_writeData]
    exact (exec_sameButUnobserved hl _).ite hl

/-- Settles O45, by the request that the step takes. -/
theorem unobservedStateStaysUnobserved : Obligations.UnobservedStateStaysUnobserved := by
  intro s t h
  obtain ⟨u, rfl⟩ := State.sameButUnobserved_iff.1 h
  cases hp : s.pending with
  | nil =>
    rw [step_idle hp, step_idle (s := s.withUnobserved u) hp]
    exact h
  | cons r q =>
    cases r with
    | snapshot =>
      rw [step_snapshot hp, step_snapshot (s := s.withUnobserved u) hp]
      rfl
    | transaction tr =>
      rw [step_transaction hp, step_transaction (s := s.withUnobserved u) hp]
      exact runTransaction_sameButUnobserved (by rfl) tr

/-! ### What each instruction can do -/

/-- The next states of the instructions, one form per instruction and branch: which fields are written, and
with what, and which drawing made the new frame (43_commands.md R151 to R159; 44_data_access.md R170 to R172;
42_bus_transfer.md R138, R139). -/
inductive Completes (s : State) : Instr → State → Prop
  | setDdramAddr (a : BitVec 7) : Completes s (.setDdramAddr a) (enterDdramMode { s with ac := a })
  | setCgramAddr (a : BitVec 6) :
    Completes s (.setCgramAddr a) { s with ac := a.zeroExtend 7, cgramMode := true }
  | functionSet (dl n : Bool) (x : BitVec 3) :
    Completes s (.functionSet dl n x)
      { s with bitMode := if dl then .eight else .four, twoLineMode := n, hhn := true }
  | displayScroll (rl : Bool) (x : BitVec 2) (f : List FrameWord)
    (hf : redrawAll s.cfg s.twoLineMode s.ddram s.cgram s.frame = .stored f) :
    Completes s (.cursorShift true rl x)
      { s with
        scrollOffset := wrapScroll s.scrollOffset (.ofBit rl), frame := f
        ac := s.ac + (Movement.ofBit rl).toAddress }
  | cursorMove (rl : Bool) (x : BitVec 2) :
    Completes s (.cursorShift false rl x) (scrollCursor s (.ofBit rl))
  | displayControl (d c b : Bool) : Completes s (.displayControl d c b) (setDisplayMode s d c b)
  | entryModeSet (id sh : Bool) :
    Completes s (.entryModeSet id sh) { s with cm := .ofBit id, autoScrollMode := sh }
  | returnHome (x : Bool) : Completes s (.returnHome x) (cursorHome { s with ac := 0 })
  | clearDisplay (m : Memory) (f : List FrameWord)
    (hfill : fillCells (List.range 80) { s with ac := 0, cm := .inc, autoScrollMode := false } =
      .next { s with ac := 0, cm := .inc, autoScrollMode := false, ddram := m, frame := f }) :
    Completes s .clearDisplay
      (cursorHome { s with ac := 0, cm := .inc, autoScrollMode := false, ddram := m, frame := f })
  | nop : Completes s .nop s
  | ddramWrite (d : Byte) (f : List FrameWord) (hmode : s.cgramMode = false)
    (hf : renderCell s.cfg s.twoLineMode (Memory.write .ddram s.ddram (idx s.twoLineMode s.ac) d) s.cgram
      (idx s.twoLineMode s.ac) s.frame = .stored f) :
    Completes s (.wrData d)
      (enterDdramMode { s with
        ddram := Memory.write .ddram s.ddram (idx s.twoLineMode s.ac) d, frame := f
        ac := stepCounter s.cfg.stepFlip s.twoLineMode s.cm s.ac })
  | cgramWrite (d : Byte) (f : List FrameWord) (hmode : s.cgramMode = true)
    (hf : redrawAll s.cfg s.twoLineMode s.ddram (putCGRAM s.cgram (cgramIndex s.ac) d) s.frame = .stored f) :
    Completes s (.wrData d)
      { s with
        cgram := putCGRAM s.cgram (cgramIndex s.ac) d, frame := f
        ac := advanceCgram s.cm s.ac, cgramMode := true }
  | rdCmd : Completes s .rdCmd (giveByte s (statusByte s) .commandByte)
  | rdData : Completes s .rdData (giveByte s s.dr .dataByte)

theorem execFunctionSet_next (dl n : Bool) (x : BitVec 3) (s : State) :
    execFunctionSet dl n x s =
      .next { s with bitMode := if dl then .eight else .four, twoLineMode := n, hhn := true } := by
  cases n <;> rfl

theorem execCursorShift_completes {s t : State} {sc rl : Bool} {x : BitVec 2}
    (h : execCursorShift sc rl x s = .next t) : Completes s (.cursorShift sc rl x) t := by
  cases sc with
  | true =>
    obtain ⟨u, hscroll, hu⟩ := andThen_next_iff.1 h
    obtain ⟨f, hf, rfl⟩ := takeFrame_next_iff.1 hscroll
    cases hu
    exact .displayScroll rl x f hf
  | false =>
    cases h
    exact .cursorMove rl x

theorem execClearDisplay_completes {s t : State} (h : execClearDisplay s = .next t) :
    Completes s .clearDisplay t := by
  obtain ⟨u, hfill, hu⟩ := andThen_next_iff.1 h
  obtain ⟨m, f, rfl⟩ := fillCells_frame hfill
  cases hu
  exact .clearDisplay m f hfill

theorem execWrData_completes {s t : State} {d : Byte} (h : execWrData d s = .next t) :
    Completes s (.wrData d) t := by
  cases hmode : s.cgramMode with
  | true =>
    rw [execWrData, if_pos hmode] at h
    obtain ⟨u, hput, hu⟩ := andThen_next_iff.1 h
    obtain ⟨f, hf, rfl⟩ := takeFrame_next_iff.1 hput
    cases hu
    exact .cgramWrite d f hmode hf
  | false =>
    rw [execWrData, if_neg (by simp [hmode])] at h
    obtain ⟨u, hput, hu⟩ := andThen_next_iff.1 h
    rw [setDDRAM_of_lt s (idx_lt ..)] at hput
    obtain ⟨f, hf, rfl⟩ := takeFrame_next_iff.1 hput
    cases hu
    exact .ddramWrite d f hmode hf

/-- An instruction that answers a next state answers one of the forms of `Completes`. -/
theorem exec_completes {i : Instr} {s t : State} (h : exec i s = .next t) : Completes s i t := by
  cases i with
  | setDdramAddr a => cases h; exact .setDdramAddr a
  | setCgramAddr a => cases h; exact .setCgramAddr a
  | functionSet dl n x =>
    cases (execFunctionSet_next dl n x s).symm.trans h
    exact .functionSet dl n x
  | cursorShift sc rl x => exact execCursorShift_completes h
  | displayControl d c b => cases h; exact .displayControl d c b
  | entryModeSet id sh => cases h; exact .entryModeSet id sh
  | returnHome x => cases h; exact .returnHome x
  | clearDisplay => exact execClearDisplay_completes h
  | nop => cases h; exact .nop
  | wrData d => exact execWrData_completes h
  | rdCmd => cases h; exact .rdCmd
  | rdData => cases h; exact .rdData

/-! ### The writers of the registers (10_state.md R12, R15, R16, R20, R28, R29) -/

/-- Settles O40, form by form of `Completes`. -/
theorem registerBankWriters : Obligations.RegisterBankWriters := by
  intro i s t h
  cases exec_completes h with
  | entryModeSet id sh => cases id <;> exact ⟨rfl, rfl, rfl⟩
  | _ => exact ⟨rfl, rfl, rfl⟩

/-- Settles O41, form by form of `Completes`. -/
theorem otherRegisterWriters : Obligations.OtherRegisterWriters := by
  intro i s t h
  cases exec_completes h with
  | setDdramAddr a => exact ⟨absurd rfl, absurd rfl, rfl, rfl, fun _ => .inl ⟨a, rfl⟩, rfl⟩
  | displayScroll rl x f => exact ⟨absurd rfl, fun _ => .inl ⟨rl, x, rfl⟩, rfl, rfl, absurd rfl, rfl⟩
  | cursorMove rl x => exact ⟨fun _ => .inl ⟨rl, x, rfl⟩, absurd rfl, rfl, rfl, absurd rfl, rfl⟩
  | returnHome x =>
    exact ⟨fun _ => .inr (.inl ⟨x, rfl⟩), fun _ => .inr (.inl ⟨x, rfl⟩), rfl, rfl, absurd rfl, rfl⟩
  | clearDisplay m f =>
    exact ⟨fun _ => .inr (.inr rfl), fun _ => .inr (.inr rfl), rfl, rfl, absurd rfl, rfl⟩
  | ddramWrite d f hmode =>
    exact ⟨absurd rfl, absurd rfl, hmode.symm, rfl, fun _ => .inr ⟨⟨d, rfl⟩, hmode⟩, rfl⟩
  | cgramWrite d f hmode => exact ⟨absurd rfl, absurd rfl, hmode.symm, rfl, absurd rfl, rfl⟩
  | _ => exact ⟨absurd rfl, absurd rfl, rfl, rfl, absurd rfl, rfl⟩

/-! ### The nibble phase (10_state.md R17, R36) -/

/-- Only Function set and the two reads move the phase by their own effect. -/
theorem exec_hhn {i : Instr} {s t : State} : exec i s = .next t →
    t.hhn = match i with
      | .functionSet _ _ _ => true
      | .rdCmd => phaseAfterRead s.bitMode s.hhn
      | .rdData => phaseAfterRead s.bitMode s.hhn
      | _ => s.hhn := by
  intro h
  cases exec_completes h <;> rfl

theorem decodeCommand_ne_read (b : Byte) : decodeCommand b ≠ .rdCmd ∧ decodeCommand b ≠ .rdData := by
  unfold decodeCommand
  repeat' split
  all_goals exact ⟨nofun, nofun⟩

/-- A completed command byte leaves the phase of its transfer, or is a Function set and forces the high
nibble (D26). -/
theorem exec_decodeCommand_hhn {b : Byte} {s t : State} (h : exec (decodeCommand b) s = .next t) :
    t.hhn = s.hhn ∨ (t.hhn = true ∧ ∃ dl n x, decodeCommand b = .functionSet dl n x) := by
  have hread := decodeCommand_ne_read b
  have hphase := exec_hhn h
  cases hi : decodeCommand b with
  | functionSet dl n x => exact .inr ⟨by simpa [hi] using hphase, dl, n, x, rfl⟩
  | rdCmd => exact absurd hi hread.1
  | rdData => exact absurd hi hread.2
  | _ => exact .inl (by simpa [hi] using hphase)

/-- In Four-bit mode a transfer moves the phase, and what runs after a low nibble leaves it at the high one. -/
theorem runTransaction_hhn_four {tr : Transaction} {s t : State} (hmode : s.bitMode = .four)
    (h : runTransaction tr s = .next t) : t.hhn = !s.hhn := by
  cases tr with
  | readCommand => cases h; simp [hmode]
  | readData => cases h; simp [hmode]
  | writeCommand b =>
    rw [runTransaction_writeCommand] at h
    cases hp : s.hhn with
    | true =>
      rw [if_neg (by simp [hmode, hp])] at h
      cases h
      simp [hmode, hp]
    | false =>
      rw [if_pos (by simp [hmode, hp])] at h
      have hlatch : (latchCommand s b).hhn = true := by simp [hmode, hp]
      obtain hkeep | ⟨hset, -⟩ := exec_decodeCommand_hhn h
      · exact hkeep.trans hlatch
      · exact hset
  | writeData b =>
    rw [runTransaction_writeData] at h
    cases hp : s.hhn with
    | true =>
      rw [if_neg (by simp [hmode, hp])] at h
      cases h
      simp [hmode, hp]
    | false =>
      rw [if_pos (by simp [hmode, hp])] at h
      have hlatch : (latchData s b).hhn = true := by simp [hmode, hp]
      exact (exec_hhn h).trans hlatch

/-- In Eight-bit mode a transfer keeps the phase, and so does what runs after it, but for a Function set. -/
theorem runTransaction_hhn_eight {tr : Transaction} {s t : State} (hmode : s.bitMode = .eight)
    (h : runTransaction tr s = .next t) :
    t.hhn = s.hhn ∨
      (t.hhn = true ∧ ∃ b dl n x, tr = .writeCommand b ∧ decodeCommand b = .functionSet dl n x) := by
  cases tr with
  | readCommand => cases h; exact .inl (by simp [hmode])
  | readData => cases h; exact .inl (by simp [hmode])
  | writeCommand b =>
    rw [runTransaction_writeCommand, if_pos (by simp [hmode]), latchCommand_ir, hmode] at h
    obtain hkeep | ⟨hset, dl, n, x, hb⟩ := exec_decodeCommand_hhn h
    · exact .inl (hkeep.trans (by simp [hmode]))
    · exact .inr ⟨hset, b, dl, n, x, rfl, hb⟩
  | writeData b =>
    rw [runTransaction_writeData, if_pos (by simp [hmode])] at h
    exact .inl ((exec_hhn h).trans (by simp [hmode]))

/-- Settles O8: the phase after the transaction that the step takes, in either width. -/
theorem phaseMovesOncePerTransfer : Obligations.PhaseMovesOncePerTransfer := by
  intro s t tr q hpending h
  rw [step_transaction hpending] at h
  exact ⟨fun hmode => runTransaction_hhn_four (s := { s with pending := q }) hmode h,
    fun hmode => runTransaction_hhn_eight (s := { s with pending := q }) hmode h⟩

/-! ### The address counter (10_state.md R13) -/

/-- The line bit of `old` inverted, at column 0: the start of the other line (20_memory.md R64). -/
theorem otherLine_start_toNat (old : Address) :
    (((old &&& 0x40) ^^^ 0x40) ||| 0).toNat = if old.toNat < 64 then 64 else 0 := by
  revert old; decide

/-- The line bit of `old` inverted, at column 39: the end of the other line (20_memory.md R64). -/
theorem otherLine_end_toNat (old : Address) :
    (((old &&& 0x40) ^^^ 0x40) ||| 39).toNat = if old.toNat < 64 then 103 else 39 := by
  revert old; decide

/-- Modulo 128: 127 is `-1` (10_state.md R11, D1). -/
theorem add_toAddress_toNat (ac : Address) (cm : Movement) :
    (ac + cm.toAddress).toNat = (ac.toNat + if cm = .inc then 1 else 127) % 128 := by
  cases cm <;> exact BitVec.toNat_add ..

theorem masked_toNat (t : Address) : (t &&& 0x3F).toNat = t.toNat % 64 := by
  rw [BitVec.toNat_and]
  exact mask6_eq_mod _

/-- The counter after a CGRAM data write moves modulo 64, where 63 is `-1` (20_memory.md R66, D23). -/
theorem advanceCgram_toNat (cm : Movement) (ac : Address) :
    (advanceCgram cm ac).toNat = (ac.toNat + if cm = .inc then 1 else 63) % 64 := by
  rw [advanceCgram, masked_toNat, add_toAddress_toNat]
  cases cm with
  | inc => exact Nat.mod_mod_of_dvd _ (by decide)
  | dec =>
    simp only [reduceCtorEq, if_false]
    omega

/-- One-line mode: a step past either end of the 80 addresses goes to the other end (20_memory.md R65). -/
theorem stepCounter_oneLine_toNat (flip : StepFlip) (cm : Movement) (ac : Address) :
    (stepCounter flip false cm ac).toNat = tableStep flip false cm ac.toNat := by
  have hac := ac.isLt
  have ht := add_toAddress_toNat ac cm
  unfold stepCounter
  generalize ac + cm.toAddress = t at ht ⊢
  cases cm with
  | inc =>
    simp only [if_true, Bool.false_eq_true, if_false, apply_ite BitVec.toNat, BitVec.ofNat_eq_ofNat,
      BitVec.toNat_ofNat, tableStep] at ht ⊢
    split_ifs <;> omega
  | dec =>
    simp only [reduceCtorEq, Bool.false_eq_true, if_false, apply_ite BitVec.toNat, BitVec.ofNat_eq_ofNat,
      BitVec.toNat_ofNat, tableStep] at ht ⊢
    split_ifs <;> omega

/-- Two-line mode: a step past either end of a line goes to the other line, which STEP_FLIP finds from the
counter before or after the addition (20_memory.md R65, D19). -/
theorem stepCounter_twoLine_toNat (flip : StepFlip) (cm : Movement) (ac : Address) :
    (stepCounter flip true cm ac).toNat = tableStep flip true cm ac.toNat := by
  have hac := ac.isLt
  have ht := add_toAddress_toNat ac cm
  unfold stepCounter
  generalize ac + cm.toAddress = t at ht ⊢
  cases cm with
  | inc =>
    cases flip <;>
      simp only [if_true, masked_toNat, apply_ite BitVec.toNat, otherLine_start_toNat, tableStep] at ht ⊢ <;>
      split_ifs <;> omega
  | dec =>
    cases flip <;>
      simp only [reduceCtorEq, if_true, if_false, masked_toNat, apply_ite BitVec.toNat, otherLine_end_toNat,
        tableStep] at ht ⊢ <;>
      split_ifs <;> omega

/-- The step of the counter is the one that 20_memory.md R65 tabulates. -/
theorem stepCounter_toNat (flip : StepFlip) (twoLine : Bool) (cm : Movement) (ac : Address) :
    (stepCounter flip twoLine cm ac).toNat = tableStep flip twoLine cm ac.toNat := by
  cases twoLine with
  | true => exact stepCounter_twoLine_toNat flip cm ac
  | false => exact stepCounter_oneLine_toNat flip cm ac

/-- Settles O39, form by form of `Completes`, and for the transfers kind by kind. -/
theorem addressCounterTable : Obligations.AddressCounterTable := by
  refine ⟨fun i s t h => ?_, fun s tr => by cases tr <;> rfl⟩
  cases exec_completes h with
  | setCgramAddr a => exact BitVec.toNat_setWidth_of_le (by decide)
  | displayScroll rl x f => cases rl <;> exact add_toAddress_toNat s.ac _
  | ddramWrite d f hmode => simpa [hmode] using stepCounter_toNat ..
  | cgramWrite d f hmode => simpa [hmode] using advanceCgram_toNat s.cm s.ac
  | _ => rfl

end Sys2Proof.Machine

namespace Sys2Proof.Machine

/-! ### The valid bands of the address counter (20_memory.md R60, R65) -/

theorem inBand_oneLine {a : Address} : inBand false a = true ↔ a.toNat < 80 := by
  simp [inBand]

theorem inBand_twoLine {a : Address} :
    inBand true a = true ↔ a.toNat < 40 ∨ (64 ≤ a.toNat ∧ a.toNat < 104) := by
  simp [inBand]

/-- One-line mode: every step ends at 0 to 79, wherever it starts. -/
theorem stepCounter_oneLine_inBand (flip : StepFlip) (cm : Movement) (ac : Address) :
    inBand false (stepCounter flip false cm ac) = true := by
  rw [inBand_oneLine, stepCounter_toNat]
  cases cm <;> simp only [tableStep] <;> split_ifs <;> omega

/-- Two-line mode: a step from a band ends in a band, for either STEP_FLIP. -/
theorem stepCounter_twoLine_inBand (flip : StepFlip) (cm : Movement) {ac : Address}
    (hac : inBand true ac = true) : inBand true (stepCounter flip true cm ac) = true := by
  have hfrom := inBand_twoLine.1 hac
  rw [inBand_twoLine, stepCounter_toNat]
  cases cm with
  | inc => simp only [tableStep]; split_ifs <;> omega
  | dec => cases flip <;> simp only [tableStep] <;> split_ifs <;> omega

/-- Settles O26: the counter after a DDRAM write is that of `stepCounter`, in the line mode of before. -/
theorem dataWriteLeavesTheCounterInABand : Obligations.DataWriteLeavesTheCounterInABand := by
  intro s t d hddram h hband
  cases exec_completes h with
  | cgramWrite _ f hcgram => simp [hddram] at hcgram
  | ddramWrite _ f =>
    show inBand s.twoLineMode (stepCounter s.cfg.stepFlip s.twoLineMode s.cm s.ac) = true
    cases htwo : s.twoLineMode with
    | false => exact stepCounter_oneLine_inBand ..
    | true => exact stepCounter_twoLine_inBand _ _ (hband.resolve_left (by simp [htwo]))

/-! ### What touches the frame and the memories (20_memory.md R50, R70) -/

/-- Settles O37, form by form of `Completes`: those that name no new frame keep the old one. -/
theorem onlyTheTriggersTouchTheFrame : Obligations.OnlyTheTriggersTouchTheFrame := by
  intro i s t h hframe
  cases exec_completes h with
  | ddramWrite d | cgramWrite d => exact .inl ⟨d, rfl⟩
  | clearDisplay => exact .inr (.inl rfl)
  | displayScroll rl x => exact .inr (.inr ⟨rl, x, rfl⟩)
  | _ => exact absurd rfl hframe

/-- Settles O42, form by form of `Completes`: only three forms name a new memory, and each is excluded where the
statement speaks of that memory. -/
theorem onlyStoresChangeMemory : Obligations.OnlyStoresChangeMemory := by
  intro i s t h
  cases exec_completes h with
  | clearDisplay => exact ⟨fun hno => absurd rfl hno.1, fun _ _ => rfl⟩
  | ddramWrite d f hddram =>
    refine ⟨fun hno => ?_, fun _ _ => rfl⟩
    simp [hno.2 ⟨d, rfl⟩] at hddram
  | cgramWrite d f hcgram =>
    refine ⟨fun _ _ => rfl, fun hno => ?_⟩
    simp [hno ⟨d, rfl⟩] at hcgram
  | _ => exact ⟨fun _ _ => rfl, fun _ _ => rfl⟩

/-! ### The guarded accesses (20_memory.md R54 to R57) -/

/-- Outside 0 to 79, negative indices included, `setDDRAM` does nothing at all. -/
theorem setDDRAM_outside (s : State) {i : Int} (hi : i < 0 ∨ 80 ≤ i) (v : Byte) :
    setDDRAM s i v = .next s := by
  cases i with
  | ofNat i =>
    rw [Int.ofNat_eq_natCast] at hi
    exact setDDRAM_of_ge s (by omega) v
  | negSucc i => rfl

theorem getCGRAM_eq_read (m : Memory) (i : Nat) : getCGRAM m i = Memory.read .cgram m (i % 64) := by
  rw [getCGRAM, mask6_eq_mod]

theorem read_putCGRAM {m : Memory} (hm : Memory.wf .cgram m = true) (i : Nat) (v : Byte) (j : Nat) :
    Memory.read .cgram (putCGRAM m i v) j = if j = i % 64 then v else Memory.read .cgram m j := by
  rw [putCGRAM, Memory.read_write hm, mask6_eq_mod]

/-- Settles O44: outside DDRAM by `setDDRAM_outside`, inside by what the two stores do in a legal state. -/
theorem guardedMemoryAccess : Obligations.GuardedMemoryAccess := by
  refine ⟨fun s i v hi => ⟨(ddram_outside hi s.ddram v).1, setDDRAM_outside s hi v⟩,
    fun s i v => ⟨getDDRAM_of_lt, getCGRAM_eq_read .., fun hs hi => ?_, fun hs => ?_⟩⟩
  · obtain ⟨f, hrender, -, hset⟩ := setDDRAM_legal hs hi v
    exact ⟨_, hset, rfl, Memory.read_write hs.ddram i v, hrender⟩
  · obtain ⟨f, hredraw, -, hset⟩ := setCGRAM_legal hs i v
    exact ⟨_, hset, rfl, read_putCGRAM hs.cgram i v, hredraw⟩

end Sys2Proof.Machine

namespace Sys2Proof

/-! ### Bits of a word in fields (30_encoding.md R80, R82) -/

/-- Putting bit `k` before the low `k` bits gives the low `1 + k` bits. -/
theorem ofBool_append_lowBits {w : Nat} (b : BitVec w) (k : Nat) :
    BitVec.ofBool (b.getLsbD k) ++ b.extractLsb' 0 k = b.extractLsb' 0 (1 + k) := by
  refine BitVec.eq_of_getLsbD_eq fun i hi => ?_
  rw [BitVec.getLsbD_append, BitVec.getLsbD_ofBool, BitVec.getLsbD_extractLsb', BitVec.getLsbD_extractLsb']
  by_cases hik : i < k
  · simp [hik, hi]
  · obtain rfl : i = k := by omega
    simp

/-- No bit of `b` from bit `k` on is set. -/
def ClearFrom {w : Nat} (b : BitVec w) (k : Nat) : Prop := ∀ j, k ≤ j → b.getLsbD j = false

theorem ClearFrom.of_width {w : Nat} (b : BitVec w) : ClearFrom b w := fun j => b.getLsbD_of_ge j

theorem ClearFrom.pred {w k : Nat} {b : BitVec w} (h : ClearFrom b (k + 1)) (hk : ¬ b.getLsbD k = true) :
    ClearFrom b k := fun j hj => by
  obtain rfl | hlt := hj.eq_or_lt
  · simpa using hk
  · exact h j hlt

/-- A vector whose highest set bit is bit `k` is a one before its low `k` bits. -/
theorem one_append_lowBits {w n k : Nat} {b : BitVec w} (hk : b.getLsbD k = true)
    (h : ClearFrom b (k + 1)) : 1#n ++ b.extractLsb' 0 k = b.setWidth (n + k) := by
  refine BitVec.eq_of_getLsbD_eq fun i hi => ?_
  rw [BitVec.getLsbD_append, BitVec.getLsbD_extractLsb', BitVec.getLsbD_one, BitVec.getLsbD_setWidth]
  obtain hlt | rfl | hgt := lt_trichotomy i k
  · simp [hlt, hi]
  · simp [hk, hi]
    omega
  · have hne : i - k ≠ 0 := by omega
    simp [h i hgt, hgt.not_gt, hne]

theorem ofBool_eq_lowBits {w : Nat} (b : BitVec w) : BitVec.ofBool (b.getLsbD 0) = b.extractLsb' 0 1 := by
  refine BitVec.eq_of_getLsbD_eq fun i hi => ?_
  obtain rfl : i = 0 := by omega
  simp

/-! ### The command bytes (30_encoding.md R82, 43_commands.md R150) -/

/-- Branch by branch of the decoder: the highest set bit and the operands below it are the byte again. -/
theorem encode_decodeCommand (b : Byte) : encode (decodeCommand b) = b.setWidth 10 := by
  have h8 : ClearFrom b 8 := .of_width b
  unfold decodeCommand
  split_ifs with h7 h6 h5 h4 h3 h2 h1 h0
  · exact one_append_lowBits (n := 3) h7 h8
  · exact one_append_lowBits (n := 4) h6 (h8.pred h7)
  · rw [encode, ofBool_append_lowBits b 3, ofBool_append_lowBits b 4]
    exact one_append_lowBits (n := 5) h5 (h8.pred h7 |>.pred h6)
  · rw [encode, ofBool_append_lowBits b 2, ofBool_append_lowBits b 3]
    exact one_append_lowBits (n := 6) h4 (h8.pred h7 |>.pred h6 |>.pred h5)
  · rw [encode, ofBool_eq_lowBits, ofBool_append_lowBits b 1, ofBool_append_lowBits b 2]
    exact one_append_lowBits (n := 7) h3 (h8.pred h7 |>.pred h6 |>.pred h5 |>.pred h4)
  · rw [encode, ofBool_eq_lowBits, ofBool_append_lowBits b 1]
    exact one_append_lowBits (n := 8) h2 (h8.pred h7 |>.pred h6 |>.pred h5 |>.pred h4 |>.pred h3)
  · rw [encode, ofBool_eq_lowBits]
    exact one_append_lowBits (n := 9) h1
      (h8.pred h7 |>.pred h6 |>.pred h5 |>.pred h4 |>.pred h3 |>.pred h2)
  · exact (BitVec.append_zero_width ..).symm.trans (one_append_lowBits (n := 10) h0
      (h8.pred h7 |>.pred h6 |>.pred h5 |>.pred h4 |>.pred h3 |>.pred h2 |>.pred h1))
  · have hclear : ClearFrom b 0 :=
      h8.pred h7 |>.pred h6 |>.pred h5 |>.pred h4 |>.pred h3 |>.pred h2 |>.pred h1 |>.pred h0
    obtain rfl : b = 0#8 := BitVec.eq_of_getLsbD_eq fun i _ => by simp [hclear i i.zero_le]
    rfl

/-! ### Words and transactions (30_encoding.md R80) -/

/-- `rs` is bit 9, `rw` is bit 8, and the byte is below them. -/
theorem Transaction.ofWord_append (k : BitVec 2) (b : Byte) :
    Transaction.ofWord (k ++ b) =
      if k.getLsbD 0 then (if k.getLsbD 1 then .readData else .readCommand)
      else if k.getLsbD 1 then .writeData b else .writeCommand b := by
  have hrs : (k ++ b : BusWord).getLsbD 9 = k.getLsbD 1 := BitVec.getLsbD_append
  have hrw : (k ++ b : BusWord).getLsbD 8 = k.getLsbD 0 := BitVec.getLsbD_append
  have hb : (k ++ b : BusWord).extractLsb' 0 8 = b := BitVec.extractLsb'_append_eq_right
  unfold Transaction.ofWord
  rw [hrs, hrw, hb]
  cases k.getLsbD 1 <;> cases k.getLsbD 0 <;> rfl

theorem Transaction.ofWord_word (t : Transaction) : Transaction.ofWord t.word = t := by
  cases t with
  | writeCommand b => exact ofWord_append 0b00#2 b
  | writeData b => exact ofWord_append 0b10#2 b
  | readCommand | readData => rfl

theorem kind_append_byte (w : BusWord) : w.extractLsb' 8 2 ++ w.extractLsb' 0 8 = w :=
  BitVec.extractLsb'_append_extractLsb' (w := 2) (len := 8)

/-- `0x300` keeps `rs` and `rw` and drops the byte. -/
theorem append_and_kindMask (k : BitVec 2) (b : Byte) : (k ++ b : BusWord) &&& 0x300 = k ++ 0#8 := calc
  (k ++ b : BusWord) &&& (0b11#2 ++ 0#8) = (k &&& 0b11#2) ++ (b &&& 0#8) := BitVec.and_append
  _ = k ++ 0#8 := by rw [BitVec.and_zero, show 0b11#2 = BitVec.allOnes 2 from rfl, BitVec.and_allOnes]

theorem Transaction.word_ofWord (w : BusWord) :
    (Transaction.ofWord w).word = if w.getLsbD 8 then w &&& 0x300 else w := by
  obtain ⟨k, b, rfl⟩ : ∃ (k : BitVec 2) (b : Byte), w = k ++ b := ⟨_, _, (kind_append_byte w).symm⟩
  have hrw : (k ++ b : BusWord).getLsbD 8 = k.getLsbD 0 := BitVec.getLsbD_append
  rw [ofWord_append, hrw, append_and_kindMask]
  match k with
  | 0b00#2 | 0b01#2 | 0b10#2 | 0b11#2 => rfl

theorem encode_decodeTransaction (t : Transaction) : encode (decodeTransaction t) = t.word := by
  cases t with
  | writeCommand b => exact (encode_decodeCommand b).trans (BitVec.setWidth_eq_append (by decide))
  | writeData b | readCommand | readData => rfl

theorem encode_decodeWord (w : BusWord) :
    encode (decodeWord w) = if w.getLsbD 8 then w &&& 0x300 else w :=
  (encode_decodeTransaction (Transaction.ofWord w)).trans (Transaction.word_ofWord w)

theorem decodeWord_word (t : Transaction) : decodeWord t.word = decodeTransaction t :=
  congrArg decodeTransaction t.ofWord_word

/-- Constructor by constructor; the operands of a command have at most seven bits and are tried out, as in the
model's law of the rows. -/
theorem decodeWord_encode (i : Instr) : decodeWord (encode i) = i := by
  cases i with
  | setDdramAddr a => revert a; decide
  | setCgramAddr a => revert a; decide
  | functionSet dl n x => revert dl n x; decide
  | cursorShift sc rl x => revert sc rl x; decide
  | displayControl d c b => revert d c b; decide
  | entryModeSet id s => revert id s; decide
  | returnHome x => revert x; decide
  | wrData d => exact decodeWord_word (.writeData d)
  | clearDisplay | nop | rdCmd | rdData => rfl

/-- The byte decoder puts the two bytes of a word together again (log 14). -/
theorem decodeBytes_word (w : BusWord) :
    decodeBytes [BitVec.ofNat 8 w.toNat, BitVec.ofNat 8 (w.toNat / 256)] = .ok (decodeWord w) := by
  have hw := w.isLt
  have hrange : (BitVec.ofNat 8 (w.toNat / 256)).toNat < 4 := by
    rw [BitVec.toNat_ofNat]
    omega
  have hlo : BitVec.ofNat 8 w.toNat = w.extractLsb' 0 8 := BitVec.eq_of_toNat_eq (by simp)
  have hhi : (BitVec.ofNat 8 (w.toNat / 256)).extractLsb' 0 2 = w.extractLsb' 8 2 :=
    BitVec.eq_of_toNat_eq (by simp [Nat.shiftRight_eq_div_pow])
  rw [decodeBytes, if_pos hrange, hlo, hhi, kind_append_byte]

theorem decodeTableWord_toNat (w : BusWord) : decodeTableWord 16 w.toNat = some (decodeWord w) := by
  have hw := w.isLt
  have hmod : w.toNat % 2 ^ 16 = w.toNat := Nat.mod_eq_of_lt (by omega)
  have hhigh : w.toNat / 2 ^ 16 = 0 := Nat.div_eq_of_lt (by omega)
  simp only [decodeTableWord, hmod, hhigh, if_true, decodeBytes_word]

theorem decodeTableWord_encode (i : Instr) : decodeTableWord 16 (encode i).toNat = some i := by
  rw [decodeTableWord_toNat, decodeWord_encode]

/-! ### The opcode map (30_encoding.md R85) -/

/-- A row looks at `rs` and `rw` alone, or holds writes alone. -/
theorem OpcodeRow.kindMask_or_write {r : OpcodeRow} (hr : r ∈ opcodeRows) :
    r.mask = 0x300 ∨ (r.mask.getLsbD 8 = true ∧ r.pattern.getLsbD 8 = false) := by
  revert r; decide

theorem OpcodeRow.holds_eq_false_of_read {r : OpcodeRow} {w : BusWord} (hw : w.getLsbD 8 = true)
    (hmask : r.mask.getLsbD 8 = true) (hpattern : r.pattern.getLsbD 8 = false) : r.holds w = false :=
  beq_eq_false_iff_ne.2 fun heq => by
    have hbit := congrArg (BitVec.getLsbD · 8) heq
    simp only [BitVec.getLsbD_and, hw, hmask, hpattern, Bool.and_self, Bool.true_eq_false] at hbit

/-- Whether a read is of a row does not depend on the byte of its word (D28). -/
theorem OpcodeRow.holds_kind_of_read {r : OpcodeRow} (hr : r ∈ opcodeRows) {w : BusWord}
    (hw : w.getLsbD 8 = true) : r.holds (w &&& 0x300) = r.holds w := by
  obtain hmask | ⟨hmask, hpattern⟩ := kindMask_or_write hr
  · rw [holds, holds, hmask, BitVec.and_assoc, BitVec.and_self]
  · have hkind : (w &&& 0x300).getLsbD 8 = true := by rw [BitVec.getLsbD_and, hw]; rfl
    rw [holds_eq_false_of_read hkind hmask hpattern, holds_eq_false_of_read hw hmask hpattern]

theorem OpcodeRow.holds_encode_decodeWord {r : OpcodeRow} (hr : r ∈ opcodeRows) (w : BusWord) :
    r.holds (encode (decodeWord w)) = r.holds w := by
  rw [encode_decodeWord]
  split
  next hread => exact holds_kind_of_read hr hread
  next => rfl

theorem tableRow_statement : ∀ i : Instr, Laws.TableRow.Statement i
  | .setDdramAddr a => Laws.TableRow.setDdramAddr a
  | .setCgramAddr a => Laws.TableRow.setCgramAddr a
  | .functionSet dl n x => Laws.TableRow.functionSet dl n x
  | .cursorShift sc rl x => Laws.TableRow.cursorShift sc rl x
  | .displayControl d c b => Laws.TableRow.displayControl d c b
  | .entryModeSet id s => Laws.TableRow.entryModeSet id s
  | .returnHome x => Laws.TableRow.returnHome x
  | .clearDisplay => Laws.TableRow.clearDisplay
  | .nop => Laws.TableRow.nop
  | .wrData d => Laws.TableRow.wrData d
  | .rdCmd => Laws.TableRow.rdCmd
  | .rdData => Laws.TableRow.rdData

/-- The rows of a word are those of its re-encoding, and that is of the row of its instruction alone. -/
theorem filter_holds_mnemonic (w : BusWord) :
    (opcodeRows.filter fun r => r.holds w).map OpcodeRow.mnemonic = [(decodeWord w).mnemonic] := by
  rw [← tableRow_statement (decodeWord w)]
  exact congrArg _ (List.filter_congr fun r hr => (OpcodeRow.holds_encode_decodeWord hr w).symm)

theorem existsUnique_row (w : BusWord) : ∃ r ∈ opcodeRows, r.mnemonic = (decodeWord w).mnemonic ∧
    ∀ r' ∈ opcodeRows, w &&& r'.mask = r'.pattern ↔ r' = r := by
  obtain ⟨r, hrows, hname⟩ := List.map_eq_singleton_iff.1 (filter_holds_mnemonic w)
  have hmem (r' : OpcodeRow) : (r' ∈ opcodeRows ∧ r'.holds w = true) ↔ r' = r := by
    rw [← List.mem_singleton (α := OpcodeRow), ← hrows, List.mem_filter]
  refine ⟨r, ((hmem r).2 rfl).1, hname, fun r' hr' => ?_⟩
  rw [← hmem r', and_iff_right hr']
  exact beq_iff_eq.symm

/-- Settles O1: the first part constructor by constructor of `Instr`, the second through the transaction of the
word, the third by the row of the re-encoded word. -/
theorem decodeAndEncodeAgree : Obligations.DecodeAndEncodeAgree :=
  ⟨fun i _ => ⟨decodeWord_encode i, decodeTableWord_encode i⟩, encode_decodeWord, existsUnique_row⟩

/-- Settles O2: each number is the encoded word of its instruction. -/
theorem sampleWordsDecode : Obligations.SampleWordsDecode :=
  ⟨decodeTableWord_encode (.setDdramAddr 3), decodeTableWord_encode (.functionSet true true 0),
    decodeTableWord_encode (.cursorShift true true 0), decodeTableWord_encode (.wrData 0x41),
    decodeTableWord_encode .rdCmd, decodeTableWord_encode .rdData⟩

end Sys2Proof

namespace Sys2Proof.Machine

/-! ### The bits that carry no pixel (40_segment_framebuffer.md R100; 20_memory.md R61) -/

/-- A bit of a half-line's rows in columns 0 to 199 is drawable, whatever the duty. -/
theorem drawable_of_lt {d : Duty} {h : HalfLine} {n b : Nat} (hn : n < 200)
    (hb : b < storeShift d h + d.fontRows) : drawable d n b = true := by
  cases d <;> cases h <;> simp only [storeShift, Duty.fontRows] at hb <;> simp [drawable, hn] <;> omega

/-- Every cell draws in the drawable part of the frame alone. -/
theorem covers_drawable {c : Config} {twoLine : Bool} {i n b : Nat} (h : covers c twoLine i n b) :
    drawable c.duty n b = true := by
  obtain ⟨hcolumn, -, hbit⟩ := h
  exact drawable_of_lt (by omega) hbit

theorem not_covers_of_undrawable {c : Config} {n b : Nat} (hnb : drawable c.duty n b = false)
    (twoLine : Bool) (i : Nat) : ¬ covers c twoLine i n b :=
  fun h => by simp [covers_drawable h] at hnb

/-- Drawing any list of cells keeps the bits that carry no pixel. -/
theorem renderCells_undrawable {c : Config} (hc : c.wf = true) {twoLine : Bool} {ddram cgram : Memory}
    {is : List Nat} {f f' : List FrameWord} (hf : f.length = c.frameLen)
    (h : renderCells c twoLine ddram cgram is f = .stored f') {n b : Nat}
    (hnb : drawable c.duty n b = false) : framePixel f' n b = framePixel f n b := by
  obtain ⟨g, hg, -, hkeep, -⟩ := renderCells_stored hc twoLine ddram cgram is hf
  cases h.symm.trans hg
  exact hkeep n b fun i _ => not_covers_of_undrawable hnb twoLine i

theorem renderCell_undrawable {c : Config} (hc : c.wf = true) {twoLine : Bool} {ddram cgram : Memory}
    {i : Nat} {f f' : List FrameWord} (hf : f.length = c.frameLen)
    (h : renderCell c twoLine ddram cgram i f = .stored f') {n b : Nat}
    (hnb : drawable c.duty n b = false) : framePixel f' n b = framePixel f n b :=
  renderCells_undrawable hc hf (is := [i]) (by rw [renderCells, h]; rfl) hnb

/-- The stores of the space character keep the bits that carry no pixel. -/
theorem fillCells_undrawable {s t : State} (hs : s.Legal) {is : List Nat} (his : ∀ i ∈ is, i < 80)
    (h : fillCells is s = .next t) {n b : Nat} (hnb : drawable s.cfg.duty n b = false) :
    framePixel t.frame n b = framePixel s.frame n b := by
  obtain ⟨m, f, hfill, -, -, -, hkeep, -⟩ := fillCells_legal is his hs
  cases h.symm.trans hfill
  exact hkeep n b fun i _ => not_covers_of_undrawable hnb s.twoLineMode i

/-- No instruction changes a bit that carries no pixel: the four forms of `Completes` that name a new frame
drew it cell by cell. -/
theorem exec_undrawable {i : Instr} {s t : State} (hs : s.Legal) (h : exec i s = .next t) {n b : Nat}
    (hnb : drawable s.cfg.duty n b = false) : framePixel t.frame n b = framePixel s.frame n b := by
  cases exec_completes h with
  | displayScroll rl x f hf => exact renderCells_undrawable hs.cfg hs.frame hf hnb
  | cgramWrite d f hmode hf => exact renderCells_undrawable hs.cfg hs.frame hf hnb
  | ddramWrite d f hmode hf => exact renderCell_undrawable hs.cfg hs.frame hf hnb
  | clearDisplay m f hfill =>
    have hlegal : ({ s with ac := 0, cm := .inc, autoScrollMode := false } : State).Legal :=
      ⟨hs.cfg, hs.ddram, hs.cgram, hs.frame, hs.cursorX, hs.scrollOffset⟩
    exact fillCells_undrawable hlegal (fun _ => List.mem_range.1) hfill hnb
  | _ => rfl

/-- Settles O38, by what a step can do: all of it but an instruction leaves the frame as it is. -/
theorem undrawableBitsNeverChange : Obligations.UndrawableBitsNeverChange := by
  intro s t hs h n b hnb
  obtain ⟨-, hstep⟩ | ⟨q, -, hstep⟩ | ⟨q, b', -, hstep | hstep⟩ | ⟨q, b', -, hstep | hstep⟩ |
    ⟨q, -, hstep⟩ | ⟨q, -, hstep⟩ := step_cases s <;> rw [hstep] at h
  · cases h; rfl
  · cases h; rfl
  · cases h; rfl
  · exact exec_undrawable ((hs.withPending q).latchCommand b') h hnb
  · cases h; rfl
  · exact exec_undrawable ((hs.withPending q).latchData b') h hnb
  · exact exec_undrawable (hs.withPending q) h hnb
  · exact exec_undrawable (hs.withPending q) h hnb

/-! ### The stores as masked merges (40_segment_framebuffer.md R101 to R105) -/

/-- The merge in its equivalent form (40 R102). -/
theorem merge_eq_or (old desired m : FrameWord) :
    merge old desired m = (old &&& ~~~m) ||| (desired &&& m) := by
  refine BitVec.eq_of_getLsbD_eq fun b hb => ?_
  rw [merge_bit, BitVec.getLsbD_or, BitVec.getLsbD_and, BitVec.getLsbD_and, BitVec.getLsbD_not,
    decide_eq_true hb]
  cases m.getLsbD b <;> simp

/-- A column store inside the frame, word by word (40 R104). -/
theorem storeColumn_words {c : Config} {f : List FrameWord} {n : Nat} (hf : f.length = c.frameLen)
    (hn : n < c.frameLen) (p : FrameWord) (h : HalfLine) :
    ∃ f', storeColumn c f n p h = .stored f' ∧ f'.length = f.length ∧
      ∀ j, frameWord f' j =
        if j = n then merge (frameWord f n) p (storeMask c.duty h) else frameWord f j :=
  ⟨_, storeColumn_inside hn p h, List.length_set, frameWord_set (by omega) _⟩

/-- The bits of the merge with a glyph column: the rows under the mask, the old bits elsewhere (40 R103). -/
theorem merge_glyphColumn_bit (d : Duty) (h : HalfLine) (rows : List Byte) (k : Nat) (old : FrameWord)
    (b : Nat) :
    (merge old (glyphColumn d h rows k) (storeMask d h)).getLsbD b =
      if storeShift d h ≤ b ∧ b < storeShift d h + d.fontRows
      then (rows.getD (b - storeShift d h) 0).getLsbD (4 - k) else old.getLsbD b := by
  rw [merge_bit, storeMask_bit, glyphColumn_bit]
  by_cases hb : storeShift d h ≤ b ∧ b < storeShift d h + d.fontRows
  · simp [hb]
  · rw [if_neg hb, if_neg (by simpa using hb)]

/-- A glyph store inside the frame, word by word (40 R103). -/
theorem storeGlyphRow_words {c : Config} {f : List FrameWord} {base : Nat} (hf : f.length = c.frameLen)
    (hin : base + 5 ≤ c.frameLen) (h : HalfLine) (rows : List Byte) :
    ∃ f', storeGlyphRow c f base h rows = .stored f' ∧ f'.length = f.length ∧
      ∀ j, frameWord f' j =
        if base ≤ j ∧ j < base + 5
        then merge (frameWord f j) (glyphColumn c.duty h rows (j - base)) (storeMask c.duty h)
        else frameWord f j := by
  obtain ⟨f', hstore, hlen, hbits⟩ := storeGlyphRow_inside c f base h rows hf hin
  refine ⟨f', hstore, hlen, fun j => BitVec.eq_of_getLsbD_eq fun b _ => ?_⟩
  rw [hbits]
  by_cases hj : base ≤ j ∧ j < base + 5
  · rw [if_pos hj, merge_glyphColumn_bit]
    simp only [hj, true_and, and_self]
  · rw [if_neg hj, if_neg fun hjb => hj hjb.1]

/-- Settles O29, from the bits of a merge and the two stores word by word. -/
theorem storesAreMaskedMerges : Obligations.StoresAreMaskedMerges :=
  ⟨merge_bit, merge_eq_or, fun _ _ _ p h hf hn => storeColumn_words hf hn p h,
    fun _ _ _ h rows hf hin => storeGlyphRow_words hf hin h rows⟩

/-- `shift(h)` by its one exception (40 R101). -/
theorem storeShift_eq (d : Duty) (h : HalfLine) :
    storeShift d h = if d = .duty16 ∧ h = .one then 8 else 0 := by
  cases d <;> cases h <;> rfl

theorem fontRows_eq (d : Duty) : d.fontRows = if d = .duty11 then 11 else 8 := by
  cases d <;> rfl

/-- Settles O30: the bits of the merge, where the mask is the bits of the rows. -/
theorem glyphStoreRewritesTheBitsUnderTheMask : Obligations.GlyphStoreRewritesTheBitsUnderTheMask := by
  intro c f base h rows hf hin shift size
  have hshift : storeShift c.duty h = shift := storeShift_eq c.duty h
  have hsize : c.duty.fontRows = size := fontRows_eq c.duty
  have hmask : ∀ b, (storeMask c.duty h).getLsbD b =
      (decide (shift ≤ b) && decide (b < shift + size)) := by
    rw [← hshift, ← hsize]
    exact storeMask_bit c.duty h
  obtain ⟨f', hstore, hlen, hbits⟩ := storeGlyphRow_inside c f base h rows hf hin
  refine ⟨f', hstore, hlen, hmask, fun n b => ?_⟩
  rw [hshift, hsize] at hbits
  simp only [framePixel, hbits, hmask, Bool.and_eq_true, decide_eq_true_eq, and_assoc]

/-- Settles O31: inside the frame from the column store word by word, outside by the range check. -/
theorem storeColumnMergesOneWord : Obligations.StoreColumnMergesOneWord := by
  refine fun c f n p h hf => ⟨fun hn => ?_, fun hn => storeColumn_outside hn p h⟩
  obtain ⟨f', hstore, hlen, hwords⟩ := storeColumn_words hf hn p h
  refine ⟨f', hstore, hlen, fun b => ?_, fun j hj => ?_⟩
  · rw [framePixel, hwords, if_pos rfl, merge_bit, framePixel]
  · rw [hwords, if_neg hj]

/-! ### The snapshot (40_segment_framebuffer.md R106) -/

theorem getElem?_eq_frameWord {f : List FrameWord} {n : Nat} (hn : n < f.length) :
    f[n]? = some (frameWord f n) := by
  simp [frameWord, hn]

/-- Settles O6: the words that go out are the frame itself. -/
theorem snapshotGivesTheWholeFrame : Obligations.SnapshotGivesTheWholeFrame := by
  intro s q hs hpending
  refine ⟨snapshot s.frame, step_snapshot hpending, hs.frame, fun n hn => ?_⟩
  exact getElem?_eq_frameWord (hn.trans_eq hs.frame.symm)

end Sys2Proof.Machine

namespace Sys2Proof.Machine

/-! ### The cursor move (41_character_memory.md R113) -/

theorem lineBit_xor_one (y : BitVec 1) : y ^^^ 1 = ~~~y := by
  revert y; decide

theorem moveCursor_inc_eq {x : Nat} (hx : x < 40) (y : BitVec 1) :
    moveCursor x y .inc = ((x + 1) % 40, if x = 39 then ~~~y else y) := by
  rw [moveCursor_inc hx, lineBit_xor_one]
  split <;> rw [Prod.mk.injEq] <;> exact ⟨by omega, rfl⟩

theorem moveCursor_dec_eq {x : Nat} (hx : x < 40) (y : BitVec 1) :
    moveCursor x y .dec = ((x + 39) % 40, if x = 0 then ~~~y else y) := by
  rw [moveCursor_dec hx, lineBit_xor_one]
  split <;> rw [Prod.mk.injEq] <;> exact ⟨by omega, rfl⟩

theorem exec_cursorMove (rl : Bool) (x : BitVec 2) (s : State) :
    exec (.cursorShift false rl x) s = .next (scrollCursor s (.ofBit rl)) := rfl

/-- Settles O17: the cursor move is `scrollCursor`, one direction at a time. -/
theorem cursorMoveEffect : Obligations.CursorMoveEffect := by
  intro s x hx
  constructor
  · rw [exec_cursorMove, Movement.ofBit_true, scrollCursor, moveCursor_inc_eq hx]
  · rw [exec_cursorMove, Movement.ofBit_false, scrollCursor, moveCursor_dec_eq hx]

/-! ### Glyph selection (41_character_memory.md R120 to R122) -/

/-- `glyph(code)` with the two CGRAM cases in one. -/
theorem glyph_eq (c : Config) (m : Memory) (code : Byte) :
    glyph c m code =
      if 0x20 ≤ code.toNat then romGlyph c code
      else if code.toNat < 8 ∨ (c.lowCode = .mirror ∧ code.toNat < 16)
      then cgramGlyph c m (code.toNat % 8)
      else blankGlyph c := by
  have hmask : (code &&& 0x07).toNat = code.toNat % 8 := by
    rw [BitVec.toNat_and]; exact Nat.and_two_pow_sub_one_eq_mod code.toNat 3
  rw [glyph, hmask]
  by_cases hrom : 0x20 ≤ code.toNat
  · rw [if_pos hrom, if_pos hrom]
  rw [if_neg hrom, if_neg hrom]
  by_cases hlow : code.toNat ≤ 0x07
  · rw [if_pos hlow, if_pos (.inl (by omega)), Nat.mod_eq_of_lt (by omega)]
  · rw [if_neg hlow]
    refine if_congr ?_ rfl rfl
    rw [or_iff_right (by omega)]
    exact and_congr_right' (by omega)

/-- A row of the ROM shows its own bits (41 R120). -/
theorem romGlyph_bit (c : Config) (code : Byte) (r : Nat) {j : Nat} (hj : j < 8) :
    ((romGlyph c code).getD r 0).getLsbD j =
      ((c.font.getD (code.toNat - 0x20) []).getD r 0).getLsbD j := by
  have hrow : (romGlyph c code).getD r 0 =
      ((c.font.getD (code.toNat - 0x20) []).getD r 0).zeroExtend 8 := List.getD_map (d := 0) (f := BitVec.zeroExtend 8) ..
  rw [hrow, BitVec.getLsbD_setWidth, decide_eq_true hj, Bool.true_and]

/-- The low 5 bits of a CGRAM cell are seen, and the rows after the eighth are blank (41 R122). -/
theorem cgramGlyph_bit {c : Config} (m : Memory) (g : Nat) {r j : Nat} (hr : r < c.duty.fontRows)
    (hj : j < 5) :
    ((cgramGlyph c m g).getD r 0).getLsbD j =
      (decide (r < 8) && (Memory.read .cgram m (8 * g + r)).getLsbD j) := by
  have hrow : (cgramGlyph c m g).getD r 0 =
      if r ≤ 7 then Memory.read .cgram m (8 * g + r) &&& 0x1F else 0 := by
    simp [cgramGlyph, hr]
  have hmask : (0x1F : Byte).getLsbD j = true := by
    revert j; decide
  rw [hrow]
  by_cases h : r < 8
  · rw [if_pos (by omega), BitVec.getLsbD_and, hmask, Bool.and_true, decide_eq_true h, Bool.true_and]
  · rw [if_neg (by omega), decide_eq_false h, Bool.false_and]
    exact BitVec.getLsbD_zero

theorem blankGlyph_bit (c : Config) (r j : Nat) : ((blankGlyph c).getD r 0).getLsbD j = false := by
  have hrow : (blankGlyph c).getD r 0 = 0 := by simp [blankGlyph]
  rw [hrow]
  exact BitVec.getLsbD_zero

/-- Settles O33, source by source of the rows: ROM, CGRAM, blank. -/
theorem glyphSelection : Obligations.GlyphSelection := by
  refine fun c m code hc => ⟨glyph_length hc m code, fun r k hr hk => ?_⟩
  rw [glyph_eq]
  split
  · exact romGlyph_bit c code r (by omega)
  · split
    · exact cgramGlyph_bit m _ hr (by omega)
    · exact blankGlyph_bit c r _

/-! ### The pixels of a drawn cell (41_character_memory.md R123) -/

/-- The first frame bit of a cell's rows is the shift of its half-line. -/
theorem storeShift_cellHalfLine (d : Duty) (twoLine : Bool) (i : Nat) :
    storeShift d (cellHalfLine twoLine i) = rowBase d twoLine i := by
  have hline : cellHalfLine twoLine i = .one ↔ twoLine = true ∧ 40 ≤ i := by simp [cellHalfLine]
  simp only [storeShift_eq, rowBase, hline]

theorem covers_iff_cellOwns {c : Config} {twoLine : Bool} {i n b : Nat} :
    covers c twoLine i n b ↔ cellOwns c.duty twoLine i n b = true := by
  simp [covers, cellOwns, storeShift_cellHalfLine, and_assoc]

theorem covers_pixel (c : Config) (twoLine : Bool) (i : Nat) {r k : Nat} (hr : r < c.duty.fontRows)
    (hk : k < 5) : covers c twoLine i (5 * (i % 40) + k) (rowBase c.duty twoLine i + r) := by
  rw [covers, storeShift_cellHalfLine]
  omega

/-- Where a cell's row and column stand in the frame, the cell's bit is that pixel. -/
theorem cellBit_eq_cellPixel (s : State) (i r : Nat) {k : Nat} (hk : k < 5) :
    cellBit s.cfg s.twoLineMode s.ddram s.cgram i (5 * (i % 40) + k)
      (rowBase s.cfg.duty s.twoLineMode i + r) = cellPixel s i r k := by
  have hcolumn : (5 * (i % 40) + k) % 5 = k := by omega
  rw [cellBit, storeShift_cellHalfLine, Nat.add_sub_cancel_left, hcolumn, cellPixel]

/-- Settles O34, from what drawing one cell does to the bits it owns and to the others. -/
theorem renderCellDrawsItsGlyph : Obligations.RenderCellDrawsItsGlyph := by
  intro s i hs _
  obtain ⟨f, hrender, hlen, hown, hkeep⟩ :=
    renderCell_stored hs.cfg s.twoLineMode s.ddram s.cgram i hs.frame
  refine ⟨f, hrender, hlen, fun r k hr hk => ?_, fun n b hno => hkeep n b ?_⟩
  · rw [framePixel, hown _ _ (covers_pixel _ _ _ hr hk), cellBit_eq_cellPixel s i r hk]
  · rw [covers_iff_cellOwns, hno]
    exact Bool.false_ne_true

/-! ### The full redraw (41_character_memory.md R124, R125) -/

theorem mem_cellOrder {o : RedrawOrder} {i : Nat} : i ∈ cellOrder o ↔ i < 80 := by
  cases o <;> simp [cellOrder]

theorem nodup_cellOrder (o : RedrawOrder) : (cellOrder o).Nodup := by
  cases o
  · exact List.nodup_range
  · exact List.nodup_reverse.2 List.nodup_range

/-- After a full redraw a bit that one cell alone owns shows that cell, in either order. -/
theorem redrawAll_bit_of_unique {c : Config} (hc : c.wf = true) {twoLine : Bool} {ddram cgram : Memory}
    {f f' : List FrameWord} (hf : f.length = c.frameLen)
    (h : redrawAll c twoLine ddram cgram f = .stored f') {i n b : Nat} (hi : i < 80)
    (hown : covers c twoLine i n b) (hunique : ∀ j < 80, covers c twoLine j n b → j = i) :
    (frameWord f' n).getLsbD b = cellBit c twoLine ddram cgram i n b := by
  obtain ⟨g, hg, -, -, hlast⟩ := renderCells_stored hc twoLine ddram cgram (cellOrder c.redrawOrder) hf
  cases h.symm.trans hg
  obtain ⟨earlier, later, horder⟩ := List.append_of_mem (mem_cellOrder.2 hi)
  refine hlast earlier i later horder n b hown fun j hj hcov => ?_
  have hj80 : j < 80 := mem_cellOrder.1 (horder ▸ List.mem_append_right _ (List.mem_cons_of_mem _ hj))
  have hnodup := horder ▸ nodup_cellOrder c.redrawOrder
  have hlater : i ∉ later := (List.nodup_cons.1 (List.nodup_append.1 hnodup).2.1).1
  exact hlater (hunique j hj80 hcov ▸ hj)

/-- With duty 16 in two-line mode no two cells own one bit (R125). -/
theorem covers_unique {c : Config} (hd : c.duty = .duty16) {i j n b : Nat} (hi : i < 80) (hj : j < 80)
    (hci : covers c true i n b) (hcj : covers c true j n b) : i = j := by
  have hline : 40 ≤ i ↔ 40 ≤ j := by
    have hshift := covers_shift hci hcj
    simp only [storeShift_cellHalfLine, rowBase, hd, true_and] at hshift
    split at hshift <;> split at hshift <;> omega
  have hcolumn : i % 40 = j % 40 := hci.1.symm.trans hcj.1
  omega

/-- The redrawing instructions leave the frame of a full redraw from the memories of the new state. -/
theorem exec_redraws {i : Instr} {s t : State} (hr : redraws i s = true) (h : exec i s = .next t) :
    t.cfg = s.cfg ∧ t.twoLineMode = s.twoLineMode ∧
      redrawAll t.cfg t.twoLineMode t.ddram t.cgram s.frame = .stored t.frame := by
  cases exec_completes h with
  | displayScroll rl x f hf => exact ⟨rfl, rfl, hf⟩
  | cgramWrite d f hmode hf => exact ⟨rfl, rfl, hf⟩
  | ddramWrite d f hmode => exact absurd (hmode.symm.trans hr) Bool.false_ne_true
  | _ => exact absurd hr Bool.false_ne_true

theorem rowBase_duty16 {i : Nat} (hi : i < 80) : rowBase .duty16 true i = 8 * (i / 40) := by
  simp only [rowBase, true_and]
  split <;> omega

/-- Settles O35: each pixel's bit is owned by its cell alone, so the redraw shows it. -/
theorem fullRedrawShowsEveryCell : Obligations.FullRedrawShowsEveryCell := by
  intro s t instr hs hduty htwo hredraws hexec i r k hi hr hk
  obtain ⟨hcfg, hline, hredraw⟩ := exec_redraws hredraws hexec
  rw [← hcfg] at hduty
  rw [htwo] at hline
  have hrow : r + 8 * (i / 40) = rowBase t.cfg.duty t.twoLineMode i + r := by
    rw [hduty, hline, rowBase_duty16 hi, Nat.add_comm]
  have hown : covers t.cfg t.twoLineMode i (5 * (i % 40) + k)
      (rowBase t.cfg.duty t.twoLineMode i + r) := covers_pixel _ _ _ (hduty ▸ hr) hk
  have hunique : ∀ j < 80, covers t.cfg t.twoLineMode j (5 * (i % 40) + k)
      (rowBase t.cfg.duty t.twoLineMode i + r) → j = i := by
    rw [hline] at hown ⊢
    exact fun j hj hcov => covers_unique hduty hj hi hcov hown
  rw [hrow, framePixel, redrawAll_bit_of_unique (hcfg ▸ hs.cfg) (hcfg ▸ hs.frame) hredraw hi hown hunique,
    cellBit_eq_cellPixel t i r hk]

end Sys2Proof.Machine

namespace Sys2Proof.Machine

/-! ### Nibbles of a byte (42_bus_transfer.md R135, R140) -/

/-- The byte that a Four-bit write completes: the high nibble of the accumulator and, below it, the high nibble
of what is on the bus (R135). -/
def joinNibbles (acc incoming : Byte) : Byte := (acc &&& 0xF0#8) ||| ((incoming &&& 0xF0#8) >>> 4)

theorem highNibble_and_highNibble (v : Byte) : v &&& 0xF0#8 &&& 0xF0#8 = v &&& 0xF0#8 := by
  rw [BitVec.and_assoc, BitVec.and_self]

theorem highNibble_or_lowNibble (v : Byte) : (v &&& 0xF0#8) ||| (v &&& 0x0F#8) = v := by
  rw [← BitVec.and_or_distrib_left]
  exact BitVec.and_allOnes

theorem shiftLeft_shiftRight_eq_and {w : Nat} (v : BitVec w) (n : Nat) :
    (v <<< n) >>> n = v &&& (BitVec.allOnes w >>> n) := by
  ext i hi
  simp [Bool.and_comm, BitVec.getLsbD_eq_getElem hi]

/-- A low nibble moved up to the high lines and down again. -/
theorem shiftLeft_shiftRight_four (v : Byte) : (v <<< 4) >>> 4 = v &&& 0x0F#8 :=
  shiftLeft_shiftRight_eq_and v 4

theorem shiftLeft_four_highNibble (v : Byte) : v <<< 4 &&& 0xF0#8 = v <<< 4 :=
  (BitVec.and_comm ..).trans (BitVec.allOnes_shiftLeft_and_shiftLeft (x := v) (n := 4))

/-- Of the accumulator the high nibble alone counts. -/
theorem joinNibbles_highNibble (acc b : Byte) : joinNibbles (acc &&& 0xF0#8) b = joinNibbles acc b := by
  rw [joinNibbles, highNibble_and_highNibble, joinNibbles]

/-- Writing a byte by its nibbles gives the byte. -/
theorem joinNibbles_shiftLeft (b : Byte) : joinNibbles b (b <<< 4) = b := by
  rw [joinNibbles, shiftLeft_four_highNibble, shiftLeft_shiftRight_four, highNibble_or_lowNibble]

/-- Reading a byte by its nibbles gives the byte (R140). -/
theorem readNibbles_rebuild (v : Byte) :
    (v &&& 0xF0#8 &&& 0xF0#8) ||| (((v &&& 0x0F#8) <<< 4) >>> 4) = v := by
  rw [highNibble_and_highNibble, shiftLeft_shiftRight_four, BitVec.and_assoc, BitVec.and_self,
    highNibble_or_lowNibble]

/-! ### What a read gives, by width and phase (42_bus_transfer.md R138 to R140) -/

section reads
variable {s : State} (v : Byte) (wrap : Byte → Reply)

theorem giveByte_eight (hmode : s.bitMode = .eight) :
    giveByte s v wrap = { s with replies := s.replies ++ [wrap v] } := by
  simp [giveByte, hmode]

theorem giveByte_high (hmode : s.bitMode = .four) (hphase : s.hhn = true) :
    giveByte s v wrap = { s with hhn := false, replies := s.replies ++ [wrap (v &&& 0xF0#8)] } := by
  simp [giveByte, hmode, hphase]

theorem giveByte_low (hmode : s.bitMode = .four) (hphase : s.hhn = false) :
    giveByte s v wrap = { s with hhn := true, replies := s.replies ++ [wrap ((v &&& 0x0F#8) <<< 4)] } := by
  simp [giveByte, hmode, hphase]

/-- Two reads of one value, high then low, give its two nibbles and leave the phase as it was (R140). -/
theorem giveByte_giveByte (hmode : s.bitMode = .four) (hphase : s.hhn = true) :
    giveByte (giveByte s v wrap) v wrap =
      { s with replies := s.replies ++ [wrap (v &&& 0xF0#8), wrap ((v &&& 0x0F#8) <<< 4)] } := by
  rw [giveByte_high v wrap hmode hphase]
  refine Eq.trans (giveByte_low v wrap hmode rfl) ?_
  simp [hphase]

end reads

/-- AC under a 0 in bit 7. -/
theorem statusByte_eq (s : State) : statusByte s = 0#1 ++ s.ac :=
  BitVec.setWidth_eq_append (by decide)

theorem exec_rdCmd_eq_giveByte (s : State) :
    exec .rdCmd s = .next (giveByte s (0#1 ++ s.ac) .commandByte) := by
  rw [exec_rdCmd, execRdCmd, statusByte_eq]

theorem exec_rdData_eq_giveByte (s : State) : exec .rdData s = .next (giveByte s s.dr .dataByte) := rfl

/-- Settles O12: a read is one `giveByte`, in either width and either phase. -/
theorem readsShowTheRegisters : Obligations.ReadsShowTheRegisters := by
  intro s
  rw [exec_rdCmd_eq_giveByte, exec_rdData_eq_giveByte]
  refine ⟨fun hmode => ?_, fun hmode hphase => ?_, fun hmode hphase => ?_⟩
  · simp only [giveByte_eight _ _ hmode, and_self]
  · simp only [giveByte_high _ _ hmode hphase, and_self]
  · simp only [giveByte_low _ _ hmode hphase, and_self]

/-! ### One step of each transaction, by width and phase (42_bus_transfer.md R135 to R139) -/

section steps
variable {s : State} {b : Byte} {q : List Request}

theorem step_readCommand (h : s.pending = .transaction .readCommand :: q) :
    step s = exec .rdCmd { s with pending := q } :=
  step_transaction h

theorem step_readData (h : s.pending = .transaction .readData :: q) :
    step s = exec .rdData { s with pending := q } :=
  step_transaction h

section command
variable (h : s.pending = .transaction (.writeCommand b) :: q)
include h

theorem step_writeCommand_eight (hmode : s.bitMode = .eight) :
    step s = exec (decodeCommand b) { s with pending := q, ir := b } := by
  rw [step_transaction h, runTransaction_writeCommand, if_pos (by simp [hmode])]
  simp [latchCommand, hmode]

theorem step_writeCommand_high (hmode : s.bitMode = .four) (hphase : s.hhn = true) :
    step s = .next { s with pending := q, ir := b &&& 0xF0#8, hhn := false } := by
  rw [step_transaction h, runTransaction_writeCommand, if_neg (by simp [hmode, hphase])]
  simp [latchCommand, hmode, hphase]

theorem step_writeCommand_low (hmode : s.bitMode = .four) (hphase : s.hhn = false) :
    step s = exec (decodeCommand (joinNibbles s.ir b))
      { s with pending := q, ir := joinNibbles s.ir b, hhn := true } := by
  rw [step_transaction h, runTransaction_writeCommand, if_pos (by simp [hmode, hphase])]
  simp [latchCommand, hmode, hphase, joinNibbles]

end command

section data
variable (h : s.pending = .transaction (.writeData b) :: q)
include h

theorem step_writeData_eight (hmode : s.bitMode = .eight) :
    step s = exec (.wrData b) { s with pending := q, dr := b } := by
  rw [step_transaction h, runTransaction_writeData, if_pos (by simp [hmode])]
  simp [latchData, hmode]

theorem step_writeData_high (hmode : s.bitMode = .four) (hphase : s.hhn = true) :
    step s = .next { s with pending := q, dr := b &&& 0xF0#8, hhn := false } := by
  rw [step_transaction h, runTransaction_writeData, if_neg (by simp [hmode, hphase])]
  simp [latchData, hmode, hphase]

theorem step_writeData_low (hmode : s.bitMode = .four) (hphase : s.hhn = false) :
    step s = exec (.wrData (joinNibbles s.dr b))
      { s with pending := q, dr := joinNibbles s.dr b, hhn := true } := by
  rw [step_transaction h, runTransaction_writeData, if_pos (by simp [hmode, hphase])]
  simp [latchData, hmode, hphase, joinNibbles]

end data

end steps

/-- Settles O3, kind by kind, and for a write by width and phase. -/
theorem stepRunsTheDecodedTransaction : Obligations.StepRunsTheDecodedTransaction := by
  intro s q b
  simp only [decodeWord_word, decodeTransaction]
  exact ⟨step_readCommand, step_readData,
    fun h => ⟨step_writeCommand_eight h, step_writeCommand_high h, step_writeCommand_low h⟩,
    fun h => ⟨step_writeData_eight h, step_writeData_high h, step_writeData_low h⟩⟩

/-! ### Pairs of Four-bit transfers (42_bus_transfer.md R140 to R142) -/

theorem runSteps_two_of_step {s t : State} (h : step s = .next t) : runSteps 2 s = step t :=
  (runSteps_of_step h 1).trans (runSteps_one t)

/-- Settles O9: the low transfer joins its nibble to the accumulator of its kind, where the high transfer has
left its own. -/
theorem nibblePairActsAsTheWholeByte : Obligations.NibblePairActsAsTheWholeByte := by
  intro s h l q hmode hphase b
  refine ⟨fun hq => ⟨?_, step_writeCommand_eight rfl rfl⟩, fun hq => ⟨?_, step_writeData_eight rfl rfl⟩⟩
  · rw [runSteps_two_of_step (step_writeCommand_high hq hmode hphase)]
    refine Eq.trans (step_writeCommand_low rfl hmode rfl) ?_
    rw [joinNibbles_highNibble, hphase]
    rfl
  · rw [runSteps_two_of_step (step_writeData_high hq hmode hphase)]
    refine Eq.trans (step_writeData_low rfl hmode rfl) ?_
    rw [joinNibbles_highNibble, hphase]
    rfl

/-- Settles O10: the low transfer sees of the high one no more than the phase, for the other kind's accumulator
is not its own. -/
theorem mixedPairUsesTheSecondAccumulator : Obligations.MixedPairUsesTheSecondAccumulator := by
  intro s h l q hmode hphase
  refine ⟨fun hq => ?_, fun hq => ?_, fun hq => ?_⟩
  · rw [runSteps_two_of_step (step_writeCommand_high hq hmode hphase), hphase]
    exact step_writeData_low rfl hmode rfl
  · rw [runSteps_two_of_step (step_writeData_high hq hmode hphase), hphase]
    exact step_writeCommand_low rfl hmode rfl
  · rw [runSteps_two_of_step (step_writeCommand_high hq hmode hphase), hphase]
    exact (step_readData rfl).trans (congrArg Host.Outcome.next (giveByte_low _ _ hmode rfl))

/-- Settles O13: both transfers read the same value, for a read changes no register. -/
theorem fourBitReadsRebuildTheValue : Obligations.FourBitReadsRebuildTheValue := by
  intro s q hmode hphase
  refine ⟨fun hq => ⟨_, _, ?_, readNibbles_rebuild _⟩, fun hq => ⟨_, _, ?_, readNibbles_rebuild _⟩⟩
  · rw [runSteps_two_of_step ((step_readCommand hq).trans (exec_rdCmd_eq_giveByte _))]
    refine (step_readCommand rfl).trans ((exec_rdCmd_eq_giveByte _).trans ?_)
    exact congrArg Host.Outcome.next (giveByte_giveByte (s := { s with pending := q }) _ _ hmode hphase)
  · rw [runSteps_two_of_step ((step_readData hq).trans (exec_rdData_eq_giveByte _))]
    refine (step_readData rfl).trans ((exec_rdData_eq_giveByte _).trans ?_)
    exact congrArg Host.Outcome.next (giveByte_giveByte (s := { s with pending := q }) _ _ hmode hphase)

/-! ### A word placed as the next request (log 2) -/

theorem withFetchWord_toNat (s : State) (w : BusWord) :
    s.withFetchWord 16 w.toNat = placeNext s (Transaction.ofWord w) := by
  have hw := w.isLt
  rw [State.withFetchWord, Nat.mod_eq_of_lt (by omega), BitVec.ofNat_toNat, BitVec.setWidth_eq]

section placed
variable {s : State} (b : Byte)

theorem placeNext_eight (hmode : s.bitMode = .eight) (t : Transaction) :
    placeNext s t = { s with pending := .transaction t :: s.pending } := by
  simp only [placeNext, hmode]

theorem placeNext_readCommand :
    placeNext s .readCommand = { s with pending := .transaction .readCommand :: s.pending } := by
  cases hmode : s.bitMode <;> simp only [placeNext, hmode]

theorem placeNext_readData :
    placeNext s .readData = { s with pending := .transaction .readData :: s.pending } := by
  cases hmode : s.bitMode <;> simp only [placeNext, hmode]

theorem placeNext_writeCommand_four (hmode : s.bitMode = .four) :
    placeNext s (.writeCommand b) =
      { s with
        ir := b &&& 0xF0#8, hhn := false
        pending := .transaction (.writeCommand (b <<< 4)) :: s.pending } := by
  simp only [placeNext, hmode]

theorem placeNext_writeData_four (hmode : s.bitMode = .four) :
    placeNext s (.writeData b) =
      { s with
        dr := b &&& 0xF0#8, hhn := false
        pending := .transaction (.writeData (b <<< 4)) :: s.pending } := by
  simp only [placeNext, hmode]

theorem step_placeNext_writeCommand :
    step (placeNext s (.writeCommand b)) =
      exec (decodeCommand b) { s with ir := b, hhn := s.hhn || decide (s.bitMode = .four) } := by
  cases hmode : s.bitMode with
  | eight =>
    rw [placeNext_eight hmode]
    refine Eq.trans (step_writeCommand_eight rfl hmode) ?_
    simp [hmode]
  | four =>
    rw [placeNext_writeCommand_four b hmode]
    refine Eq.trans (step_writeCommand_low rfl hmode rfl) ?_
    simp [joinNibbles_highNibble, joinNibbles_shiftLeft, hmode]

theorem step_placeNext_writeData :
    step (placeNext s (.writeData b)) =
      exec (.wrData b) { s with dr := b, hhn := s.hhn || decide (s.bitMode = .four) } := by
  cases hmode : s.bitMode with
  | eight =>
    rw [placeNext_eight hmode]
    refine Eq.trans (step_writeData_eight rfl hmode) ?_
    simp [hmode]
  | four =>
    rw [placeNext_writeData_four b hmode]
    refine Eq.trans (step_writeData_low rfl hmode rfl) ?_
    simp [joinNibbles_highNibble, joinNibbles_shiftLeft, hmode]

end placed

/-- Settles O7, by the transaction of the word. -/
theorem placedWordRunsNext : Obligations.PlacedWordRunsNext := by
  intro s w
  rw [withFetchWord_toNat, decodeWord]
  cases Transaction.ofWord w with
  | writeCommand b => exact step_placeNext_writeCommand b
  | writeData b => exact step_placeNext_writeData b
  | readCommand =>
    rw [placeNext_readCommand]
    exact step_readCommand rfl
  | readData =>
    rw [placeNext_readData]
    exact step_readData rfl

end Sys2Proof.Machine

namespace Sys2Proof

/-! ### The ranges of a command byte (43_commands.md R150) -/

/-- A vector from `2 ^ k` to `2 ^ (k + 1) - 1` has bit `k` as its highest set bit. -/
theorem highestBit_of_range {w k : Nat} {b : BitVec w} (hlo : 2 ^ k ≤ b.toNat)
    (hhi : b.toNat < 2 ^ (k + 1)) :
    b.getLsbD k = true ∧ ∀ j, k < j → b.getLsbD j = false :=
  ⟨Nat.testBit_of_two_pow_le_and_two_pow_add_one_gt hlo hhi, fun _ hj =>
    Nat.testBit_lt_two_pow (hhi.trans_le (Nat.pow_le_pow_right (by decide) hj))⟩

/-- The low `k` bits, from any number that agrees with the vector modulo `2 ^ k`. -/
theorem lowBits_eq_ofNat {w k n : Nat} {b : BitVec w} (h : b.toNat % 2 ^ k = n % 2 ^ k) :
    b.extractLsb' 0 k = BitVec.ofNat k n :=
  BitVec.eq_of_toNat_eq (by simpa using h)

section ranges
variable {b : Byte}

theorem decodeCommand_setDdramAddr (hlo : 0x80 ≤ b.toNat) :
    decodeCommand b = .setDdramAddr (BitVec.ofNat 7 (b.toNat - 0x80)) := by
  obtain ⟨htop, -⟩ := highestBit_of_range (k := 7) hlo b.isLt
  rw [decodeCommand, if_pos htop, lowBits_eq_ofNat (n := b.toNat - 0x80) (by omega)]

theorem decodeCommand_setCgramAddr (hlo : 0x40 ≤ b.toNat) (hhi : b.toNat < 0x80) :
    decodeCommand b = .setCgramAddr (BitVec.ofNat 6 (b.toNat - 0x40)) := by
  obtain ⟨htop, hclear⟩ := highestBit_of_range (k := 6) hlo hhi
  have hoperand : b.extractLsb' 0 6 = BitVec.ofNat 6 (b.toNat - 0x40) := lowBits_eq_ofNat (by omega)
  simp [-BitVec.getLsbD_eq_getElem, decodeCommand, htop, hclear, hoperand]

theorem decodeCommand_functionSet (hlo : 0x20 ≤ b.toNat) (hhi : b.toNat < 0x40) :
    decodeCommand b =
      .functionSet (b.getLsbD 4) (b.getLsbD 3) (BitVec.ofNat 3 (b.toNat % 8)) := by
  obtain ⟨htop, hclear⟩ := highestBit_of_range (k := 5) hlo hhi
  have hoperand : b.extractLsb' 0 3 = BitVec.ofNat 3 (b.toNat % 8) := lowBits_eq_ofNat (by omega)
  simp [-BitVec.getLsbD_eq_getElem, decodeCommand, htop, hclear, hoperand]

theorem decodeCommand_cursorShift (hlo : 0x10 ≤ b.toNat) (hhi : b.toNat < 0x20) :
    decodeCommand b =
      .cursorShift (b.getLsbD 3) (b.getLsbD 2) (BitVec.ofNat 2 (b.toNat % 4)) := by
  obtain ⟨htop, hclear⟩ := highestBit_of_range (k := 4) hlo hhi
  have hoperand : b.extractLsb' 0 2 = BitVec.ofNat 2 (b.toNat % 4) := lowBits_eq_ofNat (by omega)
  simp [-BitVec.getLsbD_eq_getElem, decodeCommand, htop, hclear, hoperand]

theorem decodeCommand_displayControl (hlo : 0x08 ≤ b.toNat) (hhi : b.toNat < 0x10) :
    decodeCommand b = .displayControl (b.getLsbD 2) (b.getLsbD 1) (b.getLsbD 0) := by
  obtain ⟨htop, hclear⟩ := highestBit_of_range (k := 3) hlo hhi
  simp [-BitVec.getLsbD_eq_getElem, decodeCommand, htop, hclear]

theorem decodeCommand_entryModeSet (hlo : 0x04 ≤ b.toNat) (hhi : b.toNat < 0x08) :
    decodeCommand b = .entryModeSet (b.getLsbD 1) (b.getLsbD 0) := by
  obtain ⟨htop, hclear⟩ := highestBit_of_range (k := 2) hlo hhi
  simp [-BitVec.getLsbD_eq_getElem, decodeCommand, htop, hclear]

theorem decodeCommand_returnHome (hlo : 0x02 ≤ b.toNat) (hhi : b.toNat < 0x04) :
    decodeCommand b = .returnHome (b.getLsbD 0) := by
  obtain ⟨htop, hclear⟩ := highestBit_of_range (k := 1) hlo hhi
  simp [-BitVec.getLsbD_eq_getElem, decodeCommand, htop, hclear]

end ranges

theorem decodeCommand_clearDisplay : decodeCommand 0x01 = .clearDisplay := rfl

theorem decodeCommand_nop : decodeCommand 0x00 = .nop := rfl

end Sys2Proof

namespace Sys2Proof.Machine

/-! ### A whole command byte (43_commands.md R150) -/

section wholeCommand
variable {s : State} {b : Byte} {q : List Request} (h : s.wholeCommand b q)
include h

theorem State.wholeCommand.step_eq :
    step s = exec (decodeCommand b) { s with pending := q, ir := b } := by
  obtain ⟨hmode, hpending⟩ := h
  exact step_writeCommand_eight hpending hmode

/-- The step of a command byte whose instruction is known. -/
theorem State.wholeCommand.step_of_decode {i : Instr} (hi : decodeCommand b = i) :
    step s = exec i { s with pending := q, ir := b } := by
  rw [h.step_eq, hi]

end wholeCommand

/-- Settles O5, range by range of the byte. -/
theorem highestSetBitSelectsTheCommand : Obligations.HighestSetBitSelectsTheCommand := by
  intro s b q h t
  have hstep {i : Instr} (hi : decodeCommand b = i) : step s = exec i t := h.step_of_decode hi
  exact ⟨fun hlo => hstep (decodeCommand_setDdramAddr hlo),
    fun hlo hhi => hstep (decodeCommand_setCgramAddr hlo hhi),
    fun hlo hhi => hstep (decodeCommand_functionSet hlo hhi),
    fun hlo hhi => hstep (decodeCommand_cursorShift hlo hhi),
    fun hlo hhi => hstep (decodeCommand_displayControl hlo hhi),
    fun hlo hhi => hstep (decodeCommand_entryModeSet hlo hhi),
    fun hlo hhi => hstep (decodeCommand_returnHome hlo hhi),
    fun hb => hstep (BitVec.eq_of_toNat_eq (y := 0x01) hb ▸ decodeCommand_clearDisplay),
    fun hb => hstep (BitVec.eq_of_toNat_eq (y := 0x00) hb ▸ decodeCommand_nop)⟩

/-! ### The address commands (43_commands.md R151, R152) -/

/-- `idx` is the address map that 20_memory.md R60 tabulates: bit 6 of an address is its line. -/
theorem idx_eq_tableCell (twoLine : Bool) (a : Address) : idx twoLine a = tableCell twoLine a.toNat := by
  have ha := a.isLt
  have hline : a.getLsbD 6 = decide (64 ≤ a.toNat) := by
    revert a; decide
  cases twoLine with
  | true =>
    simp only [idx, tableCell, hline, Bool.true_and, decide_eq_true_eq, if_true]
    split_ifs <;> omega
  | false =>
    simp only [idx, tableCell, Bool.false_and, Bool.false_eq_true, if_false]
    split_ifs <;> omega

theorem exec_setDdramAddr_next (a : BitVec 7) (s : State) :
    exec (.setDdramAddr a) s = .next { s with
      ac := a, cgramMode := false
      dr := Memory.read .ddram s.ddram (tableCell s.twoLineMode a.toNat) } := by
  rw [exec_setDdramAddr, execSetDdramAddr, enterDdramMode, getDDRAM_of_lt (idx_lt ..), idx_eq_tableCell]

/-- Settles O14: the prefetch reads the cell that `idx` gives, which is the tabulated one. -/
theorem setDdramAddressEffect : Obligations.SetDdramAddressEffect := by
  refine ⟨fun s a => exec_setDdramAddr_next a s, fun s b q h hlo => ?_⟩
  have haddress : (BitVec.ofNat 7 (b.toNat - 0x80)).toNat = b.toNat - 0x80 :=
    Nat.mod_eq_of_lt (by omega)
  rw [h.step_of_decode (decodeCommand_setDdramAddr hlo), exec_setDdramAddr_next, haddress]

theorem exec_setCgramAddr_next (a : BitVec 6) (s : State) :
    exec (.setCgramAddr a) s = .next { s with ac := 0#1 ++ a, cgramMode := true } := by
  have haddress : a.zeroExtend 7 = 0#1 ++ a := BitVec.setWidth_eq_append (by decide)
  rw [exec_setCgramAddr, execSetCgramAddr, haddress]

/-- Settles O15: the address has six bits, so extending it by a zero keeps the number. -/
theorem setCgramAddressEffect : Obligations.SetCgramAddressEffect := by
  refine ⟨fun s a => exec_setCgramAddr_next a s, fun s b q h hlo hhi => ?_⟩
  have haddress : 0#1 ++ BitVec.ofNat 6 (b.toNat - 0x40) = BitVec.ofNat 7 (b.toNat - 0x40) :=
    (BitVec.setWidth_eq_append (by decide)).symm.trans
      (BitVec.setWidth_ofNat_of_le_of_lt (by decide) (by omega))
  rw [h.step_of_decode (decodeCommand_setCgramAddr hlo hhi), exec_setCgramAddr_next, haddress]

/-! ### The mode commands and Return home (43_commands.md R153, R155 to R157, R159) -/

/-- Settles O16: the ignored bits below the line count have no effect. -/
theorem functionSetEffect : Obligations.FunctionSetEffect := by
  refine ⟨fun s dl n x => execFunctionSet_next dl n x s, fun s b q h hlo hhi => ?_⟩
  rw [h.step_of_decode (decodeCommand_functionSet hlo hhi), exec_functionSet, execFunctionSet_next]

/-- Settles O19: the command is `setDisplayMode` of its three operand bits. -/
theorem displayControlEffect : Obligations.DisplayControlEffect := by
  refine ⟨fun s d c b => rfl, fun s b q h hlo hhi => ?_⟩
  exact h.step_of_decode (decodeCommand_displayControl hlo hhi)

/-- Settles O20: the command writes its two operand bits into the two fields. -/
theorem entryModeSetEffect : Obligations.EntryModeSetEffect := by
  refine ⟨fun s id sh => rfl, fun s b q h hlo hhi => ?_⟩
  exact h.step_of_decode (decodeCommand_entryModeSet hlo hhi)

/-- Settles O21: the command is `cursorHome` after AC is set to 0. -/
theorem returnHomeEffect : Obligations.ReturnHomeEffect := by
  refine ⟨fun s x => rfl, fun s b q h hlo hhi => ?_⟩
  exact h.step_of_decode (decodeCommand_returnHome hlo hhi)

/-- Settles O23: the decoded instruction does nothing, and the transfer has latched the byte. -/
theorem nopEffect : Obligations.NopEffect :=
  ⟨fun _ => rfl, fun _ _ h => h.step_of_decode decodeCommand_nop⟩

/-! ### Display scroll (43_commands.md R154, 41_character_memory.md R112, R124) -/

/-- The wrap is modulo 40, where 39 is `-1` (D31). -/
theorem wrapScroll_ofBit (offset : Nat) (rl : Bool) :
    wrapScroll offset (.ofBit rl) = (offset + if rl then 1 else 39) % 40 := by
  cases rl with
  | true =>
    show (((offset : Int) + 1) % 40).toNat = (offset + 1) % 40
    omega
  | false =>
    show (((offset : Int) + -1) % 40).toNat = (offset + 39) % 40
    omega

theorem add_toAddress_ofBit (ac : Address) (rl : Bool) :
    ac + (Movement.ofBit rl).toAddress = BitVec.ofNat 7 (ac.toNat + if rl then 1 else 127) := by
  refine BitVec.eq_of_toNat_eq ((add_toAddress_toNat ..).trans ?_)
  cases rl <;> rfl

theorem not_covers_of_unowned {c : Config} {twoLine : Bool} {i n b : Nat}
    (h : cellOwns c.duty twoLine i n b = false) : ¬ covers c twoLine i n b := by
  rw [covers_iff_cellOwns, h]
  exact Bool.false_ne_true

/-- A full redraw keeps the bits that no cell owns. -/
theorem redrawAll_unowned {c : Config} (hc : c.wf = true) {twoLine : Bool} {ddram cgram : Memory}
    {f f' : List FrameWord} (hf : f.length = c.frameLen)
    (h : redrawAll c twoLine ddram cgram f = .stored f') {n b : Nat}
    (hno : ∀ i < 80, cellOwns c.duty twoLine i n b = false) : framePixel f' n b = framePixel f n b := by
  obtain ⟨g, hg, -, hkeep, -⟩ := renderCells_stored hc twoLine ddram cgram (cellOrder c.redrawOrder) hf
  cases h.symm.trans hg
  exact hkeep n b fun i hi => not_covers_of_unowned (hno i (mem_cellOrder.1 hi))

theorem exec_displayScroll (rl : Bool) (x : BitVec 2) (s : State) :
    exec (.cursorShift true rl x) s =
      andThen (scrollDisplay s (.ofBit rl)) fun t =>
        .next { t with ac := t.ac + (Movement.ofBit rl).toAddress } := rfl

/-- Settles O18: `scrollDisplay` completes in a legal state, and the counter moves after it. -/
theorem displayScrollEffect : Obligations.DisplayScrollEffect := by
  intro s rl x hs
  obtain ⟨f, hredraw, hlen, hscroll⟩ := scrollDisplay_legal hs (.ofBit rl)
  refine ⟨f, ?_, hredraw, hlen, fun n b hno => redrawAll_unowned hs.cfg hs.frame hredraw hno⟩
  rw [exec_displayScroll, hscroll, andThen_next, wrapScroll_ofBit, add_toAddress_ofBit]

/-! ### Clear display (43_commands.md R158, 41_character_memory.md R115) -/

/-- Clear display is the stores of the space character and `cursorHome`, from the state with the counter and the
entry mode set. -/
theorem exec_clearDisplay_eq (s : State) :
    exec .clearDisplay s =
      andThen (fillCells (List.range 80) { s with ac := 0, cm := .inc, autoScrollMode := false }) fun t =>
        .next (cursorHome t) := rfl

/-- Settles O22: the 80 stores from a legal state; the cells that share a bit draw the same glyph there. -/
theorem clearDisplayEffect : Obligations.ClearDisplayEffect := by
  intro s hs
  have hlegal : ({ s with ac := 0, cm := .inc, autoScrollMode := false } : State).Legal :=
    ⟨hs.cfg, hs.ddram, hs.cgram, hs.frame, hs.cursorX, hs.scrollOffset⟩
  obtain ⟨m, f, hfill, hwf, hlen, hread, hkeep, hdrawn⟩ :=
    fillCells_legal (List.range 80) (fun _ => List.mem_range.1) hlegal
  refine ⟨m, f, ?_, fun i hi => ?_, hwf, hlen, fun i r k hi hr hk => ?_, fun n b hno => ?_⟩
  · rw [exec_clearDisplay_eq, hfill, andThen_next, cursorHome]
  · rw [hread, if_pos (List.mem_range.2 hi)]
  · have hcolumn : (5 * (i % 40) + k) % 5 = k := by omega
    rw [framePixel, hdrawn _ _ i (List.mem_range.2 hi) (covers_pixel _ _ _ hr hk), storeShift_cellHalfLine,
      Nat.add_sub_cancel_left, hcolumn]
  · exact hkeep n b fun i hi => not_covers_of_unowned (hno i (List.mem_range.1 hi))

end Sys2Proof.Machine

namespace Sys2Proof.Machine

/-! ### CGRAM on the bus (44_data_access.md R173) -/

/-- `s` with the CGRAM `g` and the frame `f`. -/
def State.withGlyphs (s : State) (g : Memory) (f : List FrameWord) : State :=
  { s with cgram := g, frame := f }

/-- The form of the relation that can be substituted: `t` is `s` under some CGRAM and some frame, so that what an
operation computes from neither of them is the same term in both states. -/
theorem State.sameButGlyphs_iff {s t : State} : s.sameButGlyphs t ↔ ∃ g f, t = s.withGlyphs g f :=
  ⟨fun h => ⟨t.cgram, t.frame, h⟩, fun ⟨_, _, h⟩ => by subst h; rfl⟩

/-- Whether drawing one cell succeeds, and the column it fails at, depend on the configuration and the cell
alone. -/
theorem renderCell_outcome (c : Config) (twoLine : Bool) (ddram cgram ddram' cgram' : Memory) (i : Nat)
    (f f' : List FrameWord) :
    (∃ g g', renderCell c twoLine ddram cgram i f = .stored g ∧
      renderCell c twoLine ddram' cgram' i f' = .stored g') ∨
    (∃ n g g', renderCell c twoLine ddram cgram i f = .outOfRange n g ∧
      renderCell c twoLine ddram' cgram' i f' = .outOfRange n g') :=
  storeGlyphColumns_outcome ..

theorem redrawAll_outcome (c : Config) (twoLine : Bool) (ddram cgram ddram' cgram' : Memory)
    (f f' : List FrameWord) :
    (∃ g g', redrawAll c twoLine ddram cgram f = .stored g ∧
      redrawAll c twoLine ddram' cgram' f' = .stored g') ∨
    (∃ n g g', redrawAll c twoLine ddram cgram f = .outOfRange n g ∧
      redrawAll c twoLine ddram' cgram' f' = .outOfRange n g') :=
  renderCells_outcome ..

/-- Two drawings with one outcome, taken over into two states: both go on, each with its own frame, or both fault
alike. -/
theorem bothAnswer_takeFrame_of_outcome {rel : State → State → Prop} {s t : State} {r r' : StoreResult}
    (hout : (∃ g g', r = .stored g ∧ r' = .stored g') ∨
      (∃ n g g', r = .outOfRange n g ∧ r' = .outOfRange n g'))
    (h : ∀ f f', rel { s with frame := f } { t with frame := f' }) :
    bothAnswer rel (takeFrame s r) (takeFrame t r') := by
  obtain ⟨f, f', rfl, rfl⟩ | ⟨n, _, _, rfl, rfl⟩ := hout
  · exact h f f'
  · rfl

/-- A sequence that ends in a mere update `k` of the state: `k` must keep the relation. -/
theorem bothAnswer.andThen_next_sameButGlyphs {o o' : Result} {k : State → State}
    (ho : bothAnswer State.sameButGlyphs o o')
    (hk : ∀ (s : State) (g : Memory) (f : List FrameWord), (k s).sameButGlyphs (k (s.withGlyphs g f))) :
    bothAnswer State.sameButGlyphs (Machine.andThen o fun s => .next (k s))
      (Machine.andThen o' fun s => .next (k s)) :=
  ho.andThen fun s t h => by
    obtain ⟨g, f, rfl⟩ := State.sameButGlyphs_iff.1 h
    exact hk s g f

theorem setDDRAM_sameButGlyphs {s t : State} (h : s.sameButGlyphs t) (i : Nat) (v : Byte) :
    bothAnswer State.sameButGlyphs (setDDRAM s i v) (setDDRAM t i v) := by
  rcases Nat.lt_or_ge i 80 with hi | hi
  · obtain ⟨g, f, rfl⟩ := State.sameButGlyphs_iff.1 h
    rw [setDDRAM_of_lt s hi, setDDRAM_of_lt _ hi]
    exact bothAnswer_takeFrame_of_outcome (renderCell_outcome ..) fun _ _ => rfl
  · rw [setDDRAM_of_ge s hi, setDDRAM_of_ge t hi]
    exact h

theorem setCGRAM_sameButGlyphs {s t : State} (h : s.sameButGlyphs t) (i : Nat) (v : Byte) :
    bothAnswer State.sameButGlyphs (setCGRAM s i v) (setCGRAM t i v) := by
  obtain ⟨g, f, rfl⟩ := State.sameButGlyphs_iff.1 h
  exact bothAnswer_takeFrame_of_outcome (redrawAll_outcome ..) fun _ _ => rfl

theorem scrollDisplay_sameButGlyphs {s t : State} (h : s.sameButGlyphs t) (o : Movement) :
    bothAnswer State.sameButGlyphs (scrollDisplay s o) (scrollDisplay t o) := by
  obtain ⟨g, f, rfl⟩ := State.sameButGlyphs_iff.1 h
  exact bothAnswer_takeFrame_of_outcome (redrawAll_outcome ..) fun _ _ => rfl

theorem fillCells_sameButGlyphs (is : List Nat) {s t : State} (h : s.sameButGlyphs t) :
    bothAnswer State.sameButGlyphs (fillCells is s) (fillCells is t) := by
  induction is generalizing s t with
  | nil => exact h
  | cons i is ih => exact (setDDRAM_sameButGlyphs h i 0x20).andThen fun _ _ => ih

theorem execClearDisplay_sameButGlyphs {s t : State} (h : s.sameButGlyphs t) :
    bothAnswer State.sameButGlyphs (execClearDisplay s) (execClearDisplay t) := by
  obtain ⟨g, f, rfl⟩ := State.sameButGlyphs_iff.1 h
  exact (fillCells_sameButGlyphs (List.range 80) (by rfl)).andThen_next_sameButGlyphs fun _ _ _ => rfl

/-- The cell and the mode of a data write are read from registers, and its prefetch from DDRAM (R170 to R172). -/
theorem execWrData_sameButGlyphs {s t : State} (h : s.sameButGlyphs t) (d : Byte) :
    bothAnswer State.sameButGlyphs (execWrData d s) (execWrData d t) := by
  have hc := setCGRAM_sameButGlyphs h (cgramIndex s.ac) d
  have hd := setDDRAM_sameButGlyphs h (idx s.twoLineMode s.ac) d
  obtain ⟨g, f, rfl⟩ := State.sameButGlyphs_iff.1 h
  have hc' : bothAnswer State.sameButGlyphs (cgramDataWrite d s) (cgramDataWrite d (s.withGlyphs g f)) :=
    hc.andThen_next_sameButGlyphs fun _ _ _ => rfl
  have hd' : bothAnswer State.sameButGlyphs (ddramDataWrite d s) (ddramDataWrite d (s.withGlyphs g f)) :=
    hd.andThen_next_sameButGlyphs fun _ _ _ => rfl
  exact hc'.ite hd'

theorem execCursorShift_sameButGlyphs {s t : State} (h : s.sameButGlyphs t) (sc rl : Bool) (x : BitVec 2) :
    bothAnswer State.sameButGlyphs (execCursorShift sc rl x s) (execCursorShift sc rl x t) := by
  cases sc with
  | true => exact (scrollDisplay_sameButGlyphs h _).andThen_next_sameButGlyphs fun _ _ _ => rfl
  | false =>
    obtain ⟨g, f, rfl⟩ := State.sameButGlyphs_iff.1 h
    rfl

/-- Every instruction keeps the relation: those that draw by the laws above, the others because the fields they
compute read neither CGRAM nor the frame. -/
theorem exec_sameButGlyphs {s t : State} (h : s.sameButGlyphs t) (i : Instr) :
    bothAnswer State.sameButGlyphs (exec i s) (exec i t) := by
  cases i with
  | clearDisplay => exact execClearDisplay_sameButGlyphs h
  | wrData d => exact execWrData_sameButGlyphs h d
  | cursorShift sc rl x => exact execCursorShift_sameButGlyphs h sc rl x
  | _ =>
    obtain ⟨g, f, rfl⟩ := State.sameButGlyphs_iff.1 h
    rfl

/-- A transaction latches the same byte in both states and then runs the same instruction, or none. -/
theorem runTransaction_sameButGlyphs {s t : State} (h : s.sameButGlyphs t) (tr : Transaction) :
    bothAnswer State.sameButGlyphs (runTransaction tr s) (runTransaction tr t) := by
  obtain ⟨g, f, rfl⟩ := State.sameButGlyphs_iff.1 h
  cases tr with
  | readCommand => exact exec_sameButGlyphs h .rdCmd
  | readData => exact exec_sameButGlyphs h .rdData
  | writeCommand b =>
    have hl : (latchCommand s b).sameButGlyphs (latchCommand (s.withGlyphs g f) b) := rfl
    rw [runTransaction_writeCommand, runTransaction_writeCommand]
    exact (exec_sameButGlyphs hl _).ite hl
  | writeData b =>
    have hl : (latchData s b).sameButGlyphs (latchData (s.withGlyphs g f) b) := rfl
    rw [runTransaction_writeData, runTransaction_writeData]
    exact (exec_sameButGlyphs hl _).ite hl

/-- Settles O46, by the request that the step takes: none, or a transaction. -/
theorem cgramCannotBeReadOnTheBus : Obligations.CgramCannotBeReadOnTheBus := by
  intro s t h hnosnapshot
  obtain ⟨g, f, rfl⟩ := State.sameButGlyphs_iff.1 h
  cases hp : s.pending with
  | nil =>
    rw [step_idle hp, step_idle (s := s.withGlyphs g f) hp]
    exact h
  | cons r q =>
    cases r with
    | snapshot => exact absurd hp (hnosnapshot q)
    | transaction tr =>
      rw [step_transaction hp, step_transaction (s := s.withGlyphs g f) hp]
      exact runTransaction_sameButGlyphs (by rfl) tr

end Sys2Proof.Machine

namespace Sys2Proof.Machine

/-! ### The data writes (44_data_access.md R170 to R172) -/

theorem tableCell_lt (twoLine : Bool) (a : Address) : tableCell twoLine a.toNat < 80 := by
  rw [← idx_eq_tableCell]
  exact idx_lt twoLine a

theorem stepCounter_eq_ofNat (flip : StepFlip) (twoLine : Bool) (cm : Movement) (ac : Address) :
    stepCounter flip twoLine cm ac = BitVec.ofNat 7 (tableStep flip twoLine cm ac.toNat) := by
  rw [← stepCounter_toNat, BitVec.ofNat_toNat, BitVec.setWidth_eq]

theorem advanceCgram_eq_ofNat (cm : Movement) (ac : Address) :
    advanceCgram cm ac = BitVec.ofNat 7 ((ac.toNat + if cm = .inc then 1 else 63) % 64) := by
  rw [← advanceCgram_toNat, BitVec.ofNat_toNat, BitVec.setWidth_eq]

/-- `enterDdramMode` with the cell of the address map, when the mode is DDRAM's already. -/
theorem enterDdramMode_eq {s : State} (hmode : s.cgramMode = false) :
    enterDdramMode s =
      { s with dr := Memory.read .ddram s.ddram (tableCell s.twoLineMode s.ac.toNat) } := by
  rw [enterDdramMode, getDDRAM_of_lt (idx_lt ..), idx_eq_tableCell, ← hmode]

/-- A data byte to DDRAM in a legal state: it completes, with the frame of its one drawn cell. -/
theorem exec_wrData_ddram {s : State} (hs : s.Legal) (hmode : s.cgramMode = false) (d : Byte) :
    let m := Memory.write .ddram s.ddram (tableCell s.twoLineMode s.ac.toNat) d
    let a := stepCounter s.cfg.stepFlip s.twoLineMode s.cm s.ac
    ∃ f, renderCell s.cfg s.twoLineMode m s.cgram (tableCell s.twoLineMode s.ac.toNat) s.frame = .stored f ∧
      f.length = s.cfg.frameLen ∧
      exec (.wrData d) s = .next { s with
        ddram := m, frame := f, ac := a, dr := Memory.read .ddram m (tableCell s.twoLineMode a.toNat) } := by
  obtain ⟨f, hrender, hlen, hset⟩ := setDDRAM_legal hs (tableCell_lt s.twoLineMode s.ac) d
  refine ⟨f, hrender, hlen, ?_⟩
  rw [exec_wrData, execWrData, if_neg (by simp [hmode]), ddramDataWrite, idx_eq_tableCell, hset, andThen_next]
  exact congrArg Host.Outcome.next (enterDdramMode_eq hmode)

/-- Settles O24: the write is `setDDRAM` and a step of the counter, and what is drawn is the cell that holds the
byte already. -/
theorem ddramDataWriteEffect : Obligations.DdramDataWriteEffect := by
  intro s d hs hmode i a
  have hi : i < 80 := tableCell_lt s.twoLineMode s.ac
  have hread := Memory.read_write hs.ddram i d
  have hlegal : ({ s with ddram := Memory.write .ddram s.ddram i d } : State).Legal :=
    hs.redrawn (Memory.wf_write hs.ddram hi d) hs.cgram hs.frame
  obtain ⟨f, hrender, hlen, hexec⟩ := exec_wrData_ddram hs hmode d
  obtain ⟨f', hrender', -, hdrawn, hkeep⟩ := renderCellDrawsItsGlyph _ i hlegal hi
  cases hrender.symm.trans hrender'
  rw [stepCounter_eq_ofNat] at hexec
  refine ⟨_, f, hexec, hread, hlen, fun r k hr hk => ?_, hkeep⟩
  rw [hdrawn r k hr hk, cellPixel, hread, if_pos rfl]

theorem cgramIndex_eq_mod (ac : Address) : cgramIndex ac = ac.toNat % 64 := masked_toNat ac

/-- A data byte to CGRAM in a legal state: it completes, with the frame of a full redraw. -/
theorem exec_wrData_cgram {s : State} (hs : s.Legal) (hmode : s.cgramMode = true) (d : Byte) :
    ∃ f, redrawAll s.cfg s.twoLineMode s.ddram (putCGRAM s.cgram (cgramIndex s.ac) d) s.frame = .stored f ∧
      f.length = s.cfg.frameLen ∧
      exec (.wrData d) s = .next { s with
        cgram := putCGRAM s.cgram (cgramIndex s.ac) d, frame := f, ac := advanceCgram s.cm s.ac } := by
  obtain ⟨f, hredraw, hlen, hset⟩ := setCGRAM_legal hs (cgramIndex s.ac) d
  refine ⟨f, hredraw, hlen, ?_⟩
  rw [exec_wrData, execWrData, if_pos hmode, cgramDataWrite, hset, andThen_next, ← hmode]

/-- Settles O25: the write is `setCGRAM` at the masked address and an advance of the counter. -/
theorem cgramDataWriteEffect : Obligations.CgramDataWriteEffect := by
  intro s d hs hmode
  obtain ⟨f, hredraw, hlen, hexec⟩ := exec_wrData_cgram hs hmode d
  refine ⟨_, f, ?_, fun j => ?_, hredraw, hlen, fun n b hno => redrawAll_unowned hs.cfg hs.frame hredraw hno⟩
  · rw [hexec, advanceCgram_eq_ofNat]
  · rw [read_putCGRAM hs.cgram, cgramIndex_eq_mod, Nat.mod_mod]

end Sys2Proof.Machine

namespace Sys2Proof.Machine

/-! ### What is written is read back (44_data_access.md R174) -/

/-- A run in two parts. -/
theorem runSteps_add (m n : Nat) (s : State) :
    runSteps (m + n) s = andThen (runSteps m s) (runSteps n) := by
  induction m generalizing s with
  | zero => rw [Nat.zero_add, runSteps_zero, andThen_next]
  | succ m ih =>
    rw [Nat.succ_add, runSteps_succ, runSteps_succ]
    cases step s with
    | next t => exact ih t
    | fault e => rfl
    | refused r => rfl

theorem runSteps_add_of_next {m : Nat} {s t : State} (h : runSteps m s = .next t) (n : Nat) :
    runSteps (m + n) s = runSteps n t := by
  rw [runSteps_add, h, andThen_next]

/-- The transfers that write one byte: the byte itself, or its high and then its low nibble (42 R135). -/
def byteTransfers (mode : BitMode) (write : Byte → Transaction) (b : Byte) : List Transaction :=
  match mode with
  | .eight => [write b]
  | .four => [write b, write (b <<< 4)]

/-- How many transfers carry one byte. -/
def transfersPerByte : BitMode → Nat
  | .eight => 1
  | .four => 2

section byteWrites
variable {s : State} {b : Byte} {q : List Request} (hphase : s.bitMode = .four → s.hhn = true)
include hphase

/-- The transfers of one command byte run its command, in either width. -/
theorem runSteps_writeCommand (h : s.pending = requests (byteTransfers s.bitMode .writeCommand b) ++ q) :
    runSteps (transfersPerByte s.bitMode) s = exec (decodeCommand b) { s with pending := q, ir := b } := by
  cases hmode : s.bitMode with
  | eight =>
    rw [hmode] at h
    have hrun := step_writeCommand_eight (q := q) h hmode
    rw [hmode] at hrun
    exact (runSteps_one s).trans hrun
  | four =>
    rw [hmode] at h
    obtain ⟨hpair, -⟩ := nibblePairActsAsTheWholeByte s b (b <<< 4) q hmode (hphase hmode)
    obtain ⟨hrun, -⟩ := hpair h
    have hbyte : (b &&& 0xF0#8) ||| ((b <<< 4 &&& 0xF0#8) >>> 4) = b := joinNibbles_shiftLeft b
    rw [hbyte, hmode] at hrun
    exact hrun

/-- The transfers of one data byte run its data write, in either width. -/
theorem runSteps_writeData (h : s.pending = requests (byteTransfers s.bitMode .writeData b) ++ q) :
    runSteps (transfersPerByte s.bitMode) s = exec (.wrData b) { s with pending := q, dr := b } := by
  cases hmode : s.bitMode with
  | eight =>
    rw [hmode] at h
    have hrun := step_writeData_eight (q := q) h hmode
    rw [hmode] at hrun
    exact (runSteps_one s).trans hrun
  | four =>
    rw [hmode] at h
    obtain ⟨-, hpair⟩ := nibblePairActsAsTheWholeByte s b (b <<< 4) q hmode (hphase hmode)
    obtain ⟨hrun, -⟩ := hpair h
    have hbyte : (b &&& 0xF0#8) ||| ((b <<< 4 &&& 0xF0#8) >>> 4) = b := joinNibbles_shiftLeft b
    rw [hbyte, hmode] at hrun
    exact hrun

end byteWrites

theorem decodeCommand_one_append (a : BitVec 7) : decodeCommand (1#1 ++ a) = .setDdramAddr a := by
  revert a; decide

/-- The command byte of Set DDRAM address, in either width. -/
theorem runSteps_setDdramAddr {s : State} (hphase : s.bitMode = .four → s.hhn = true) {a : BitVec 7}
    {q : List Request} (h : s.pending = requests (byteTransfers s.bitMode .writeCommand (1#1 ++ a)) ++ q) :
    runSteps (transfersPerByte s.bitMode) s = .next { s with
      pending := q, ir := 1#1 ++ a, ac := a, cgramMode := false
      dr := Memory.read .ddram s.ddram (tableCell s.twoLineMode a.toNat) } := by
  rw [runSteps_writeCommand hphase h, decodeCommand_one_append, exec_setDdramAddr_next]

/-- A data byte to DDRAM in a legal state, in either width. -/
theorem runSteps_ddramWrite {s : State} (hs : s.Legal) (hphase : s.bitMode = .four → s.hhn = true)
    (hmode : s.cgramMode = false) {d : Byte} {q : List Request}
    (h : s.pending = requests (byteTransfers s.bitMode .writeData d) ++ q) :
    let m := Memory.write .ddram s.ddram (tableCell s.twoLineMode s.ac.toNat) d
    let a := stepCounter s.cfg.stepFlip s.twoLineMode s.cm s.ac
    ∃ f, f.length = s.cfg.frameLen ∧
      runSteps (transfersPerByte s.bitMode) s = .next { s with
        pending := q, ddram := m, frame := f, ac := a
        dr := Memory.read .ddram m (tableCell s.twoLineMode a.toNat) } := by
  rw [runSteps_writeData hphase h]
  have hlegal : ({ s with pending := q, dr := d } : State).Legal :=
    ⟨hs.cfg, hs.ddram, hs.cgram, hs.frame, hs.cursorX, hs.scrollOffset⟩
  obtain ⟨f, -, hlen, hexec⟩ := exec_wrData_ddram hlegal hmode d
  exact ⟨f, hlen, hexec⟩

/-- A byte written at an address is in DR when the address is set again, whatever the mode, the line count and the
direction were. -/
theorem runSteps_writeAt_readdress {s : State} (hs : s.Legal) (hphase : s.bitMode = .four → s.hhn = true)
    {a : BitVec 7} {d : Byte} {q₁ q₂ q : List Request}
    (h : s.pending = requests (byteTransfers s.bitMode .writeCommand (1#1 ++ a)) ++ q₁)
    (h₁ : q₁ = requests (byteTransfers s.bitMode .writeData d) ++ q₂)
    (h₂ : q₂ = requests (byteTransfers s.bitMode .writeCommand (1#1 ++ a)) ++ q) :
    ∃ t, runSteps (transfersPerByte s.bitMode + transfersPerByte s.bitMode + transfersPerByte s.bitMode) s =
        .next t ∧
      t.dr = d ∧ t.bitMode = s.bitMode ∧ t.hhn = s.hhn ∧ t.replies = s.replies ∧ t.pending = q := by
  have haddress := runSteps_setDdramAddr hphase h
  obtain ⟨f, -, hwrite⟩ := runSteps_ddramWrite (s := { s with
      pending := q₁, ir := 1#1 ++ a, ac := a, cgramMode := false
      dr := Memory.read .ddram s.ddram (tableCell s.twoLineMode a.toNat) })
    ⟨hs.cfg, hs.ddram, hs.cgram, hs.frame, hs.cursorX, hs.scrollOffset⟩ hphase rfl h₁
  have hwritten := (runSteps_add_of_next haddress _).trans hwrite
  have hreaddressed := (runSteps_add_of_next hwritten _).trans
    (runSteps_setDdramAddr (a := a) (q := q) (by exact hphase) (by exact h₂))
  refine ⟨_, hreaddressed, ?_, rfl, rfl, rfl, rfl⟩
  exact (Memory.read_write hs.ddram ..).trans (if_pos rfl)

/-- A read of DR in Eight-bit mode. -/
theorem step_readData_eight {s : State} {q : List Request} (hmode : s.bitMode = .eight)
    (h : s.pending = .transaction .readData :: q) :
    step s = .next { s with pending := q, replies := s.replies ++ [.dataByte s.dr] } := by
  rw [step_readData h, exec_rdData_eq_giveByte]
  exact congrArg Host.Outcome.next (giveByte_eight _ _ hmode)

/-- The two reads of DR in Four-bit mode, high then low. -/
theorem runSteps_readData_four {s : State} {q : List Request} (hmode : s.bitMode = .four) (hphase : s.hhn = true)
    (h : s.pending = requests [.readData, .readData] ++ q) :
    runSteps 2 s = .next { s with
      pending := q
      replies := s.replies ++ [.dataByte (s.dr &&& 0xF0#8), .dataByte ((s.dr &&& 0x0F#8) <<< 4)] } := by
  rw [runSteps_two_of_step ((step_readData h).trans (exec_rdData_eq_giveByte _))]
  refine (step_readData rfl).trans ((exec_rdData_eq_giveByte _).trans ?_)
  exact congrArg Host.Outcome.next (giveByte_giveByte (s := { s with pending := q }) _ _ hmode hphase)

/-- Moved up by four lines a byte keeps its low nibble alone. -/
theorem lowNibble_shiftLeft_four (v : Byte) : (v &&& 0x0F#8) <<< 4 = v <<< 4 :=
  (BitVec.shiftLeft_and_distrib ..).trans (shiftLeft_four_highNibble v)

/-- Settles O27: the write and the second address command leave the byte in DR, which is then read. -/
theorem writeThenReadReturnsTheByte : Obligations.WriteThenReadReturnsTheByte := by
  intro s a d q hs c
  refine ⟨fun hmode h => ?_, fun hmode hphase h => ?_⟩
  · obtain ⟨t, hrun, hdr, hwidth, -, hreplies, hpending⟩ :=
      runSteps_writeAt_readdress hs (by simp [hmode]) (by rw [hmode]; exact h) (by rw [hmode]; rfl)
        (by rw [hmode]; rfl)
    rw [hmode] at hrun hwidth
    have hread := (runSteps_one t).trans (step_readData_eight hwidth hpending)
    exact ⟨_, (runSteps_add_of_next hrun 1).trans hread, by rw [hreplies, hdr], rfl⟩
  · obtain ⟨t, hrun, hdr, hwidth, hhigh, hreplies, hpending⟩ :=
      runSteps_writeAt_readdress hs (fun _ => hphase) (by rw [hmode]; exact h) (by rw [hmode]; rfl)
        (by rw [hmode]; rfl)
    rw [hmode] at hrun hwidth
    have hread := runSteps_readData_four hwidth (hhigh.trans hphase) hpending
    exact ⟨_, (runSteps_add_of_next hrun 2).trans hread, by rw [hreplies, hdr, lowNibble_shiftLeft_four], rfl⟩

end Sys2Proof.Machine

namespace Sys2Proof.Machine

/-! ### Eighty data writes in a row (44_data_access.md R175) -/

/-- The valid address of a cell, the inverse of the address map (20_memory.md R60). -/
def cellAddress (twoLine : Bool) (i : Nat) : Nat := if twoLine = true ∧ 40 ≤ i then i + 24 else i

theorem cellAddress_oneLine (i : Nat) : cellAddress false i = i := rfl

theorem cellAddress_twoLine (i : Nat) :
    (i < 40 ∧ cellAddress true i = i) ∨ (40 ≤ i ∧ cellAddress true i = i + 24) := by
  simp only [cellAddress, true_and]
  split <;> omega

theorem tableCell_cellAddress (twoLine : Bool) {i : Nat} (hi : i < 80) :
    tableCell twoLine (cellAddress twoLine i) = i := by
  cases twoLine with
  | true =>
    have haddress := cellAddress_twoLine i
    generalize cellAddress true i = a at haddress ⊢
    simp only [tableCell, if_true]
    split_ifs <;> omega
  | false => exact if_pos hi

/-- Forward the counter steps from the address of each cell to that of the next, and from the last cell to the
first (20_memory.md R65). -/
theorem tableStep_inc_cellAddress (flip : StepFlip) (twoLine : Bool) {i : Nat} (hi : i < 80) :
    tableStep flip twoLine .inc (cellAddress twoLine i) =
      cellAddress twoLine (if i = 79 then 0 else i + 1) := by
  cases twoLine with
  | true =>
    have hfrom := cellAddress_twoLine i
    have hto := cellAddress_twoLine (if i = 79 then 0 else i + 1)
    generalize cellAddress true i = a at hfrom ⊢
    generalize cellAddress true (if i = 79 then 0 else i + 1) = b at hto ⊢
    simp only [tableStep]
    split_ifs at hto ⊢ <;> omega
  | false =>
    rw [cellAddress_oneLine, cellAddress_oneLine]
    simp only [tableStep]
    split_ifs <;> omega

/-- Backward the counter steps from the address of each cell to that of the one before, and from the first cell to
the last; in two-line mode it finds the other line with STEP_FLIP = pre alone (20_memory.md R65, D19). -/
theorem tableStep_dec_cellAddress {flip : StepFlip} {twoLine : Bool} (hflip : twoLine = true → flip = .pre)
    {i : Nat} (hi : i < 80) :
    tableStep flip twoLine .dec (cellAddress twoLine i) =
      cellAddress twoLine (if i = 0 then 79 else i - 1) := by
  cases twoLine with
  | true =>
    have hfrom := cellAddress_twoLine i
    have hto := cellAddress_twoLine (if i = 0 then 79 else i - 1)
    generalize cellAddress true i = a at hfrom ⊢
    generalize cellAddress true (if i = 0 then 79 else i - 1) = b at hto ⊢
    rw [hflip rfl]
    simp only [tableStep]
    split_ifs at hto ⊢ <;> omega
  | false =>
    rw [cellAddress_oneLine, cellAddress_oneLine]
    simp only [tableStep]
    split_ifs <;> omega

/-- The cell of the `k`-th write of a row that starts at the first cell forward, at the last cell backward. -/
def visitedCell (cm : Movement) (k : Nat) : Nat :=
  match cm with
  | .inc => k % 80
  | .dec => 79 - k % 80

theorem visitedCell_lt (cm : Movement) (k : Nat) : visitedCell cm k < 80 := by
  cases cm <;> simp only [visitedCell] <;> omega

theorem visitedCell_inj (cm : Movement) {j k : Nat} (hj : j < 80) (hk : k < 80) :
    visitedCell cm j = visitedCell cm k ↔ j = k := by
  cases cm <;> simp only [visitedCell] <;> omega

/-- After 80 writes the row is at its start again. -/
theorem visitedCell_eighty (cm : Movement) : visitedCell cm 80 = visitedCell cm 0 := by
  cases cm <;> rfl

theorem visitedCell_inc_succ (k : Nat) :
    visitedCell .inc (k + 1) = if visitedCell .inc k = 79 then 0 else visitedCell .inc k + 1 := by
  show (k + 1) % 80 = if k % 80 = 79 then 0 else k % 80 + 1
  split <;> omega

theorem visitedCell_dec_succ (k : Nat) :
    visitedCell .dec (k + 1) = if visitedCell .dec k = 0 then 79 else visitedCell .dec k - 1 := by
  show 79 - (k + 1) % 80 = if 79 - k % 80 = 0 then 79 else 79 - k % 80 - 1
  split <;> omega

/-- The step of the counter goes from each cell of the row to the next. -/
theorem tableStep_visitedCell {flip : StepFlip} {twoLine : Bool} {cm : Movement}
    (hflip : cm = .dec → twoLine = true → flip = .pre) (k : Nat) :
    tableStep flip twoLine cm (cellAddress twoLine (visitedCell cm k)) =
      cellAddress twoLine (visitedCell cm (k + 1)) := by
  cases cm with
  | inc => rw [visitedCell_inc_succ, tableStep_inc_cellAddress _ _ (visitedCell_lt ..)]
  | dec => rw [visitedCell_dec_succ, tableStep_dec_cellAddress (hflip rfl) (visitedCell_lt ..)]

/-- A row of writes is its first write and, over that, the row of the others. -/
theorem getD_row_cons (d : Byte) (ds : List Byte) (old : Byte) (j k : Nat) :
    (if k + 1 ≤ j ∧ j < k + 1 + ds.length then ds.getD (j - (k + 1)) 0 else if j = k then d else old) =
      if k ≤ j ∧ j < k + (ds.length + 1) then (d :: ds).getD (j - k) 0 else old := by
  rcases Nat.lt_trichotomy j k with hlt | rfl | hgt
  · rw [if_neg (by omega), if_neg (by omega), if_neg (by omega)]
  · rw [if_neg (by omega), if_pos rfl, if_pos (by omega), Nat.sub_self, List.getD_cons_zero]
  · have hnext : j - k = j - (k + 1) + 1 := by omega
    rw [if_neg (show j ≠ k by omega), hnext, List.getD_cons_succ]
    exact if_congr (by omega) rfl rfl

/-- The writes of a row from its `k`-th cell on: the bytes stand in the cells visited, the other cells are kept, and
the counter is at the next cell of the row. -/
theorem runSteps_dataWrites (ds : List Byte) {s : State} {q : List Request} {k : Nat} (hs : s.Legal)
    (hwidth : s.bitMode = .eight) (hmode : s.cgramMode = false)
    (hflip : s.cm = .dec → s.twoLineMode = true → s.cfg.stepFlip = .pre)
    (hac : s.ac.toNat = cellAddress s.twoLineMode (visitedCell s.cm k)) (hk : k + ds.length ≤ 80)
    (hpending : s.pending = requests (ds.map .writeData) ++ q) :
    ∃ t, runSteps ds.length s = .next t ∧
      t.ac.toNat = cellAddress s.twoLineMode (visitedCell s.cm (k + ds.length)) ∧ t.pending = q ∧
      ∀ j < 80, Memory.read .ddram t.ddram (visitedCell s.cm j) =
        if k ≤ j ∧ j < k + ds.length then ds.getD (j - k) 0
        else Memory.read .ddram s.ddram (visitedCell s.cm j) := by
  induction ds generalizing s k with
  | nil =>
    refine ⟨s, rfl, hac, hpending, fun j _ => (if_neg ?_).symm⟩
    simp only [List.length_nil]
    omega
  | cons d ds ih =>
    rw [List.length_cons] at hk ⊢
    have hcell : tableCell s.twoLineMode s.ac.toNat = visitedCell s.cm k := by
      rw [hac, tableCell_cellAddress _ (visitedCell_lt ..)]
    obtain ⟨f, hlen, hwrite⟩ := runSteps_ddramWrite hs (by simp [hwidth]) hmode
      (q := requests (ds.map .writeData) ++ q) (d := d) (by rw [hwidth]; exact hpending)
    rw [hcell, hwidth] at hwrite
    have hstep := (runSteps_one s).symm.trans hwrite
    obtain ⟨t, hrun, htac, htpending, hread⟩ := ih (k := k + 1)
      (s := { s with
        bitMode := .eight, pending := requests (ds.map .writeData) ++ q, frame := f
        ddram := Memory.write .ddram s.ddram (visitedCell s.cm k) d
        ac := stepCounter s.cfg.stepFlip s.twoLineMode s.cm s.ac
        dr := _ })
      ⟨hs.cfg, Memory.wf_write hs.ddram (visitedCell_lt ..) d, hs.cgram, hlen, hs.cursorX, hs.scrollOffset⟩
      rfl hmode hflip (by rw [stepCounter_toNat, hac, tableStep_visitedCell hflip]) (by omega) rfl
    refine ⟨t, (runSteps_of_step hstep _).trans hrun, ?_, htpending, fun j hj => ?_⟩
    · rw [htac, Nat.add_right_comm, Nat.add_assoc]
    · have hwritten := Memory.read_write hs.ddram (visitedCell s.cm k) d (visitedCell s.cm j)
      simp only [visitedCell_inj s.cm hj (show k < 80 by omega)] at hwritten
      exact (hread j hj).trans ((congrArg _ hwritten).trans (getD_row_cons ..))

/-- A whole row of 80 writes in either direction: each cell holds its byte and the counter is back. -/
theorem runSteps_eightyWrites {ds : List Byte} {s : State} {q : List Request} (hs : s.Legal)
    (hwidth : s.bitMode = .eight) (hmode : s.cgramMode = false) (hds : ds.length = 80)
    (hpending : s.pending = requests (ds.map .writeData) ++ q)
    (hflip : s.cm = .dec → s.twoLineMode = true → s.cfg.stepFlip = .pre)
    (hac : s.ac.toNat = cellAddress s.twoLineMode (visitedCell s.cm 0)) :
    ∃ t, runSteps 80 s = .next t ∧ t.ac = s.ac ∧ t.pending = q ∧
      ∀ i < 80, Memory.read .ddram t.ddram (visitedCell s.cm i) = ds.getD i 0 := by
  obtain ⟨t, hrun, htac, htpending, hread⟩ :=
    runSteps_dataWrites ds hs hwidth hmode hflip hac (by omega) hpending
  rw [hds] at hrun
  rw [hds, Nat.zero_add, visitedCell_eighty, ← hac] at htac
  refine ⟨t, hrun, BitVec.eq_of_toNat_eq htac, htpending, fun i hi => ?_⟩
  rw [hread i hi, if_pos (by omega), Nat.sub_zero]

/-- Settles O28: forward the row visits cell `i`, backward cell `79 - i`, in its `i`-th write. -/
theorem eightyWritesVisitEveryCellOnce : Obligations.EightyWritesVisitEveryCellOnce := by
  intro s ds q hs hwidth hmode hds hpending
  have hrow := runSteps_eightyWrites hs hwidth hmode hds hpending
  refine ⟨fun hcm hac => ?_, fun hcm hac hflip => ?_⟩
  · obtain ⟨t, hrun, htac, htpending, hread⟩ :=
      hrow (by simp [hcm]) (by rw [hac, hcm]; simp [cellAddress, visitedCell])
    refine ⟨t, hrun, htac.trans hac, htpending, fun i hi => ?_⟩
    rw [← hread i hi, hcm, visitedCell, Nat.mod_eq_of_lt hi]
  · obtain ⟨t, hrun, htac, htpending, hread⟩ :=
      hrow (fun _ => hflip) (by rw [hac, hcm]; cases s.twoLineMode <;> rfl)
    refine ⟨t, hrun, htac, htpending, fun i hi => ?_⟩
    rw [← hread i hi, hcm, visitedCell, Nat.mod_eq_of_lt hi]

end Sys2Proof.Machine

namespace Sys2Proof.Machine

/-! ### A legal state answers a legal state (60_exceptions.md R185) -/

/-- `o` completes, in a legal state. -/
def AnswersLegal (o : Result) : Prop := ∃ t, o = .next t ∧ t.Legal

theorem execCursorShift_answersLegal {s : State} (hs : s.Legal) (sc rl : Bool) (x : BitVec 2) :
    AnswersLegal (exec (.cursorShift sc rl x) s) := by
  cases sc with
  | true =>
    obtain ⟨f, -, hlen, hscroll⟩ := scrollDisplay_legal hs (.ofBit rl)
    refine ⟨_, by rw [exec_displayScroll, hscroll, andThen_next], ?_⟩
    exact ⟨hs.cfg, hs.ddram, hs.cgram, hlen, hs.cursorX, wrapScroll_lt ..⟩
  | false =>
    exact ⟨_, exec_cursorMove rl x s,
      hs.cfg, hs.ddram, hs.cgram, hs.frame, moveCursor_lt hs.cursorX .., hs.scrollOffset⟩

theorem execClearDisplay_answersLegal {s : State} (hs : s.Legal) :
    AnswersLegal (exec .clearDisplay s) := by
  obtain ⟨m, f, hexec, -, hwf, hlen, -⟩ := clearDisplayEffect s hs
  exact ⟨_, hexec, hs.cfg, hwf, hs.cgram, hlen, Nat.zero_lt_succ 39, Nat.zero_lt_succ 39⟩

theorem execWrData_answersLegal {s : State} (hs : s.Legal) (d : Byte) :
    AnswersLegal (exec (.wrData d) s) := by
  cases hmode : s.cgramMode with
  | true =>
    obtain ⟨f, -, hlen, hexec⟩ := exec_wrData_cgram hs hmode d
    exact ⟨_, hexec, hs.cfg, hs.ddram, putCGRAM_wf hs.cgram .., hlen, hs.cursorX, hs.scrollOffset⟩
  | false =>
    obtain ⟨f, -, hlen, hexec⟩ := exec_wrData_ddram hs hmode d
    have hwf := Memory.wf_write hs.ddram (tableCell_lt s.twoLineMode s.ac) d
    exact ⟨_, hexec, hs.cfg, hwf, hs.cgram, hlen, hs.cursorX, hs.scrollOffset⟩

/-- Every instruction: those that draw by the laws above, Return home because it homes the cursor, the others
because they write none of the fields that `State.Legal` speaks of. -/
theorem exec_answersLegal {s : State} (hs : s.Legal) (i : Instr) : AnswersLegal (exec i s) := by
  cases i with
  | cursorShift sc rl x => exact execCursorShift_answersLegal hs sc rl x
  | clearDisplay => exact execClearDisplay_answersLegal hs
  | wrData d => exact execWrData_answersLegal hs d
  | returnHome x =>
    exact ⟨_, rfl, hs.cfg, hs.ddram, hs.cgram, hs.frame, Nat.zero_lt_succ 39, Nat.zero_lt_succ 39⟩
  | _ => exact ⟨_, rfl, hs.cfg, hs.ddram, hs.cgram, hs.frame, hs.cursorX, hs.scrollOffset⟩

/-- Every step, by what a step can do: the transfers keep a state legal, and so does what runs after them. -/
theorem step_answersLegal {s : State} (hs : s.Legal) : AnswersLegal (step s) := by
  obtain ⟨-, hstep⟩ | ⟨q, -, hstep⟩ | ⟨q, b, -, hstep | hstep⟩ | ⟨q, b, -, hstep | hstep⟩ |
    ⟨q, -, hstep⟩ | ⟨q, -, hstep⟩ := step_cases s <;> rw [hstep]
  · exact ⟨s, rfl, hs⟩
  · exact ⟨_, rfl, hs.cfg, hs.ddram, hs.cgram, hs.frame, hs.cursorX, hs.scrollOffset⟩
  · exact ⟨_, rfl, (hs.withPending q).latchCommand b⟩
  · exact exec_answersLegal ((hs.withPending q).latchCommand b) _
  · exact ⟨_, rfl, (hs.withPending q).latchData b⟩
  · exact exec_answersLegal ((hs.withPending q).latchData b) _
  · exact exec_answersLegal (hs.withPending q) _
  · exact exec_answersLegal (hs.withPending q) _

/-- Settles O47: the state that a step from a legal state answers is the legal one. -/
theorem stepKeepsLegal : Obligations.StepKeepsLegal := by
  intro s t hs h
  obtain ⟨u, hstep, hu⟩ := step_answersLegal hs
  cases h.symm.trans hstep
  exact hu

/-- Settles O48, for a step and for each instruction on its own. -/
theorem everyTransactionCompletes : Obligations.EveryTransactionCompletes := by
  intro s hs
  refine ⟨?_, fun i => ?_⟩
  · obtain ⟨t, hstep, -⟩ := step_answersLegal hs
    exact ⟨t, hstep⟩
  · obtain ⟨t, hexec, -⟩ := exec_answersLegal hs i
    exact ⟨t, hexec⟩

/-! ### Construction (60_exceptions.md R183) -/

/-- The legal duty numbers, and the glyph rows of each (D7). -/
theorem dutyNumber_cases (n : Nat) :
    ((n = 8 ∨ n = 11 ∨ n = 16) ∧
      ∃ d, Duty.ofNumber n = some d ∧ d.fontRows = if n = 11 then 11 else 8) ∨
    (¬ (n = 8 ∨ n = 11 ∨ n = 16) ∧ Duty.ofNumber n = none) := by
  by_cases hn : n = 8 ∨ n = 11 ∨ n = 16
  · refine .inl ⟨hn, ?_⟩
    obtain rfl | rfl | rfl := hn
    · exact ⟨.duty8, rfl, rfl⟩
    · exact ⟨.duty11, rfl, rfl⟩
    · exact ⟨.duty16, rfl, rfl⟩
  · refine .inr ⟨hn, ?_⟩
    simp only [not_or] at hn
    simp [Duty.ofNumber, hn]

theorem construct_of_none {n : Nat} (hn : Duty.ofNumber n = none) (c : Config) (dr ir : Byte) (m : Memory) :
    construct n c dr ir m = .fault .constructionFailure := by
  rw [construct, hn]; rfl

theorem construct_of_some {n : Nat} {d : Duty} (hn : Duty.ofNumber n = some d) (c : Config) (dr ir : Byte)
    (m : Memory) :
    construct n c dr ir m =
      if ({ c with duty := d } : Config).wf then .next (State.resetWith { c with duty := d } dr ir m)
      else .fault .constructionFailure := by
  rw [construct, hn]; rfl

/-- Settles O50: with a legal duty number the geometry is good when the configuration is well formed, and
without one there is no configuration to check. -/
theorem constructionFailsOnBadGeometryOnly : Obligations.ConstructionFailsOnBadGeometryOnly := by
  intro n c dr ir m good
  obtain ⟨hn, d, hd, hrows⟩ | ⟨hn, hnone⟩ := dutyNumber_cases n
  · have hgood : good ↔ ({ c with duty := d } : Config).wf = true := by
      rw [Config.wf_iff, hrows]
      exact (and_iff_right hn).trans and_assoc.symm
    rw [hgood, construct_of_some hd]
    exact ⟨fun hwf => ⟨_, if_pos hwf⟩, fun hwf => if_neg hwf⟩
  · exact ⟨fun hgood => absurd hgood.1 hn, fun _ => construct_of_none hnone ..⟩

end Sys2Proof.Machine

namespace Sys2Proof.Machine

/-! ### A glyph store that leaves the frame (40_segment_framebuffer.md R103, R105; 60_exceptions.md R184) -/

/-- Columns `k` on, `m` of them, the last outside: the store stops at the first of them that is outside, after
the merges of those before it. -/
theorem storeGlyphColumns_outside {c : Config} (base : Nat) (h : HalfLine) (rows : List Byte) {m : Nat}
    (hm : 0 < m) (k : Nat) {f : List FrameWord} (hf : f.length = c.frameLen)
    (hout : c.frameLen < base + k + m) :
    ∃ f', storeGlyphColumns c base h rows (List.range' k m) f = .outOfRange (max (base + k) c.frameLen) f' ∧
      f'.length = f.length ∧
      ∀ n, frameWord f' n =
        if base + k ≤ n ∧ n < c.frameLen
        then merge (frameWord f n) (glyphColumn c.duty h rows (n - base)) (storeMask c.duty h)
        else frameWord f n := by
  induction m generalizing k f with
  | zero => exact absurd hm (Nat.lt_irrefl 0)
  | succ m ih =>
    rw [List.range'_succ, storeGlyphColumns]
    rcases Nat.lt_or_ge (base + k) c.frameLen with hin | hge
    · obtain ⟨f₁, hstore, hlen, hword⟩ :=
        storeColumn_words hf hin (glyphColumn c.duty h rows k) h
      obtain ⟨f', hrest, hlen', hwords⟩ := ih (by omega) (k + 1) (hlen.trans hf) (by omega)
      refine ⟨f', ?_, hlen'.trans hlen, fun n => ?_⟩
      · rw [hstore, StoreResult.stored_andThen, hrest, Nat.max_eq_right (by omega), Nat.max_eq_right (by omega)]
      · rw [hwords, hword]
        rcases Nat.lt_trichotomy n (base + k) with hlt | rfl | hgt
        · rw [if_neg (by omega), if_neg (by omega), if_neg (by omega)]
        · rw [if_neg (by omega), if_pos rfl, if_pos ⟨le_rfl, hin⟩, Nat.add_sub_cancel_left]
        · rw [if_neg (by omega : n ≠ base + k)]
          exact if_congr (by omega) rfl rfl
    · refine ⟨f, ?_, rfl, fun n => (if_neg (by omega)).symm⟩
      rw [storeColumn_outside hge, StoreResult.outOfRange_andThen, Nat.max_eq_left hge]

/-- A glyph store that leaves the frame, word by word. -/
theorem storeGlyphRow_outside {c : Config} {f : List FrameWord} {base : Nat} (hf : f.length = c.frameLen)
    (hout : c.frameLen < base + 5) (h : HalfLine) (rows : List Byte) :
    ∃ f', storeGlyphRow c f base h rows = .outOfRange (max base c.frameLen) f' ∧ f'.length = f.length ∧
      ∀ n, frameWord f' n =
        if base ≤ n ∧ n < c.frameLen
        then merge (frameWord f n) (glyphColumn c.duty h rows (n - base)) (storeMask c.duty h)
        else frameWord f n :=
  storeGlyphColumns_outside base h rows (m := 5) (by decide) 0 hf hout

/-! ### Cells inside and outside a frame of any length

The two outcomes of drawing a cell are those of a frame of FRAME_LEN words, for the outcome does not depend on the
frame (`renderCell_outcome`). -/

section cells
variable {c : Config} {twoLine : Bool} {ddram cgram : Memory} {i : Nat}

theorem renderCell_of_inside (hin : 5 * (i % 40) + 5 ≤ c.frameLen) (f : List FrameWord) :
    ∃ f', renderCell c twoLine ddram cgram i f = .stored f' := by
  obtain ⟨g, hg, -⟩ := storeGlyphRow_inside c (List.replicate c.frameLen 0) (5 * (i % 40))
    (cellHalfLine twoLine i) (glyph c cgram (Memory.read .ddram ddram i)) List.length_replicate hin
  obtain ⟨f', -, hf', -⟩ | ⟨_, _, _, -, hg'⟩ := renderCell_outcome c twoLine ddram cgram ddram cgram i f
    (List.replicate c.frameLen 0)
  · exact ⟨f', hf'⟩
  · cases hg.symm.trans hg'

theorem renderCell_of_outside (hout : c.frameLen < 5 * (i % 40) + 5) (f : List FrameWord) :
    ∃ f', renderCell c twoLine ddram cgram i f = .outOfRange (max (5 * (i % 40)) c.frameLen) f' := by
  obtain ⟨g, hg, -⟩ := storeGlyphRow_outside (f := List.replicate c.frameLen 0) List.length_replicate hout
    (cellHalfLine twoLine i) (glyph c cgram (Memory.read .ddram ddram i))
  obtain ⟨_, _, -, hg'⟩ | ⟨n, f', _, hf', hg'⟩ := renderCell_outcome c twoLine ddram cgram ddram cgram i f
    (List.replicate c.frameLen 0)
  · cases hg.symm.trans hg'
  · cases hg.symm.trans hg'
    exact ⟨f', hf'⟩

end cells

/-! ### The stores that ask for a cell outside (20_memory.md R55; 44_data_access.md R171) -/

@[simp] theorem andThen_fault (e : Fault) (k : State → Result) : andThen (.fault e) k = .fault e := rfl

theorem setDDRAM_of_outside (s : State) {i : Nat} (hi : i < 80) (hout : s.cfg.frameLen < 5 * (i % 40) + 5)
    (v : Byte) : setDDRAM s i v = .fault (.indexOutOfRange (max (5 * (i % 40)) s.cfg.frameLen)) := by
  obtain ⟨f, hf⟩ := renderCell_of_outside hout s.frame
  rw [setDDRAM_of_lt s hi, hf, takeFrame_outOfRange]

theorem exec_wrData_outside {s : State} (hmode : s.cgramMode = false)
    (hout : s.cfg.frameLen < 5 * (tableCell s.twoLineMode s.ac.toNat % 40) + 5) (d : Byte) :
    exec (.wrData d) s = .fault (.indexOutOfRange
      (max (5 * (tableCell s.twoLineMode s.ac.toNat % 40)) s.cfg.frameLen)) := by
  rw [exec_wrData, execWrData, if_neg (by simp [hmode]), ddramDataWrite, idx_eq_tableCell,
    setDDRAM_of_outside s (tableCell_lt ..) hout, andThen_fault]

/-- Settles O32: the glyph store word by word, and the fault through the operations that ask for it. -/
theorem glyphStoreFailsAtTheFirstColumnOutside : Obligations.GlyphStoreFailsAtTheFirstColumnOutside := by
  refine ⟨fun c f base h rows hf hout => ?_, fun s i v hi hout => setDDRAM_of_outside s hi hout v, ?_⟩
  · obtain ⟨f', hstore, hlen, hwords⟩ := storeGlyphRow_outside hf hout h rows
    refine ⟨f', hstore, hlen, fun n hn => ?_, fun n hn hlt => ?_⟩
    · rw [hwords, if_neg (by omega)]
    · rw [hwords, if_pos ⟨hn, hlt⟩]
  · intro s d hmode base hout
    refine ⟨exec_wrData_outside hmode hout d, fun q height hpending => ?_⟩
    rw [step_writeData_eight hpending height]
    exact exec_wrData_outside (s := { s with pending := q, dr := d }) hmode hout d

/-! ### A frame shorter than the cells (60_exceptions.md R184) -/

/-- The cells before `i`, `i`, and the cells after it, of a row of cells in ascending order. -/
theorem range_eq_append_cons {i n : Nat} (hi : i < n) :
    ∃ later, List.range n = List.range i ++ i :: later := by
  obtain ⟨m, rfl⟩ := Nat.exists_eq_add_of_lt hi
  exact ⟨_, by rw [Nat.add_assoc, List.range_add, List.range_succ_eq_map, List.map_cons]; rfl⟩

/-- Cells that are all inside, then one that is outside: drawing stops there. -/
theorem renderCells_of_outside {c : Config} (twoLine : Bool) (ddram cgram : Memory) {earlier : List Nat} {i : Nat}
    (later : List Nat) (hin : ∀ j ∈ earlier, 5 * (j % 40) + 5 ≤ c.frameLen)
    (hout : c.frameLen < 5 * (i % 40) + 5) (f : List FrameWord) :
    ∃ f', renderCells c twoLine ddram cgram (earlier ++ i :: later) f =
      .outOfRange (max (5 * (i % 40)) c.frameLen) f' := by
  induction earlier generalizing f with
  | nil =>
    obtain ⟨f', hf'⟩ := renderCell_of_outside hout f
    exact ⟨f', by rw [List.nil_append, renderCells, hf', StoreResult.outOfRange_andThen]⟩
  | cons j js ih =>
    obtain ⟨g, hg⟩ := renderCell_of_inside (hin j List.mem_cons_self) f
    obtain ⟨f', hf'⟩ := ih (fun k hk => hin k (List.mem_cons_of_mem j hk)) g
    exact ⟨f', by rw [List.cons_append, renderCells, hg, StoreResult.stored_andThen, hf']⟩

theorem setDDRAM_of_inside (s : State) {i : Nat} (hi : i < 80) (hin : 5 * (i % 40) + 5 ≤ s.cfg.frameLen)
    (v : Byte) : ∃ t, setDDRAM s i v = .next t ∧ t.cfg = s.cfg := by
  obtain ⟨f, hf⟩ := renderCell_of_inside hin s.frame
  have hset := setDDRAM_of_lt s hi v
  rw [hf, takeFrame_stored] at hset
  exact ⟨_, hset, rfl⟩

/-- The same for the stores of the space character. -/
theorem fillCells_of_outside {earlier : List Nat} {i : Nat} (later : List Nat) (hearlier : ∀ j ∈ earlier, j < 80)
    (hi : i < 80) {s : State} (hin : ∀ j ∈ earlier, 5 * (j % 40) + 5 ≤ s.cfg.frameLen)
    (hout : s.cfg.frameLen < 5 * (i % 40) + 5) :
    fillCells (earlier ++ i :: later) s =
      .fault (.indexOutOfRange (max (5 * (i % 40)) s.cfg.frameLen)) := by
  induction earlier generalizing s with
  | nil => rw [List.nil_append, fillCells, setDDRAM_of_outside s hi hout, andThen_fault]
  | cons j js ih =>
    obtain ⟨hj, hjs⟩ := List.forall_mem_cons.1 hearlier
    obtain ⟨hinj, hinjs⟩ := List.forall_mem_cons.1 hin
    obtain ⟨t, ht, hcfg⟩ := setDDRAM_of_inside s hj hinj 0x20
    rw [List.cons_append, fillCells, ht, andThen_next, ← hcfg]
    rw [← hcfg] at hinjs hout
    exact ih hjs hinjs hout

section shortFrame
variable {c : Config} (hshort : c.frameLen < 200)
include hshort

/-- In ascending order cell `FRAME_LEN / 5` is the first that is outside, and FRAME_LEN is one of its columns. -/
theorem cell_div_five_firstOutside :
    (∀ j ∈ List.range (c.frameLen / 5), 5 * (j % 40) + 5 ≤ c.frameLen) ∧
      c.frameLen < 5 * (c.frameLen / 5 % 40) + 5 ∧
      max (5 * (c.frameLen / 5 % 40)) c.frameLen = c.frameLen := by
  refine ⟨fun j hj => ?_, by omega, by omega⟩
  rw [List.mem_range] at hj
  omega

/-- A full redraw: ascending it stops at FRAME_LEN; descending it begins with cell 79, whose columns are 195 to
199, and stops there. -/
theorem redrawAll_short (twoLine : Bool) (ddram cgram : Memory) (f : List FrameWord) :
    ∃ f', redrawAll c twoLine ddram cgram f =
      .outOfRange (if c.redrawOrder = .ascending then c.frameLen else max 195 c.frameLen) f' := by
  rw [redrawAll]
  cases c.redrawOrder with
  | ascending =>
    obtain ⟨hin, hout, hcolumn⟩ := cell_div_five_firstOutside hshort
    obtain ⟨later, hrange⟩ := range_eq_append_cons (i := c.frameLen / 5) (n := 80) (by omega)
    obtain ⟨f', hf'⟩ := renderCells_of_outside twoLine ddram cgram later hin hout f
    exact ⟨f', by rw [cellOrder, hrange, hf', hcolumn, if_pos rfl]⟩
  | descending =>
    have horder : cellOrder .descending = [] ++ 79 :: (List.range 79).reverse := by
      rw [cellOrder, List.range_succ, List.reverse_concat, List.nil_append]
    rw [horder]
    exact renderCells_of_outside (i := 79) twoLine ddram cgram _ (List.forall_mem_nil _) hshort f

end shortFrame

theorem fillCells_short {s : State} (hshort : s.cfg.frameLen < 200) :
    fillCells (List.range 80) s = .fault (.indexOutOfRange s.cfg.frameLen) := by
  obtain ⟨hin, hout, hcolumn⟩ := cell_div_five_firstOutside hshort
  have hi : s.cfg.frameLen / 5 < 80 := by omega
  obtain ⟨later, hrange⟩ := range_eq_append_cons hi
  rw [hrange, fillCells_of_outside later (fun j hj => (List.mem_range.1 hj).trans hi) hi hin hout, hcolumn]

theorem exec_displayScroll_fault {s : State} {n : Nat} {f : List FrameWord}
    (h : redrawAll s.cfg s.twoLineMode s.ddram s.cgram s.frame = .outOfRange n f) (rl : Bool) (x : BitVec 2) :
    exec (.cursorShift true rl x) s = .fault (.indexOutOfRange n) := by
  rw [exec_displayScroll, scrollDisplay, h, takeFrame_outOfRange, andThen_fault]

theorem exec_wrData_cgram_fault {s : State} (hmode : s.cgramMode = true) {d : Byte} {n : Nat}
    {f : List FrameWord}
    (h : redrawAll s.cfg s.twoLineMode s.ddram (putCGRAM s.cgram (cgramIndex s.ac) d) s.frame =
      .outOfRange n f) :
    exec (.wrData d) s = .fault (.indexOutOfRange n) := by
  simp only [exec_wrData, execWrData, if_pos hmode, cgramDataWrite, setCGRAM, h, takeFrame_outOfRange,
    andThen_fault]

/-- Settles O52: the two instructions that redraw, by `redrawAll_short`, and Clear display by its stores, which
begin at cell 0 in either order. -/
theorem shortFrameFaultsEveryRedraw : Obligations.ShortFrameFaultsEveryRedraw := by
  refine fun s i hshort => ⟨fun hredraws => ?_, ?_⟩
  · cases i with
    | cursorShift sc rl x =>
      obtain rfl : sc = true := hredraws
      obtain ⟨f, hf⟩ := redrawAll_short hshort s.twoLineMode s.ddram s.cgram s.frame
      exact exec_displayScroll_fault hf rl x
    | wrData d =>
      obtain ⟨f, hf⟩ := redrawAll_short hshort s.twoLineMode s.ddram
        (putCGRAM s.cgram (cgramIndex s.ac) d) s.frame
      exact exec_wrData_cgram_fault hredraws hf
    | _ => exact absurd hredraws Bool.false_ne_true
  · rw [exec_clearDisplay_eq,
      fillCells_short (s := { s with ac := 0, cm := .inc, autoScrollMode := false }) hshort, andThen_fault]

end Sys2Proof.Machine

namespace Sys2Proof.Machine

/-! ### What no instruction changes (70_reset_and_hazards.md R205) -/

theorem exec_cfg {i : Instr} {s t : State} (h : exec i s = .next t) : t.cfg = s.cfg := by
  cases exec_completes h <;> rfl

theorem exec_pending {i : Instr} {s t : State} (h : exec i s = .next t) : t.pending = s.pending := by
  cases exec_completes h <;> rfl

theorem step_cfg {s t : State} (h : step s = .next t) : t.cfg = s.cfg := by
  obtain ⟨-, hstep⟩ | ⟨q, -, hstep⟩ | ⟨q, b, -, hstep | hstep⟩ | ⟨q, b, -, hstep | hstep⟩ |
    ⟨q, -, hstep⟩ | ⟨q, -, hstep⟩ := step_cases s <;> rw [hstep] at h
  · cases h; rfl
  · cases h; rfl
  · cases h; rfl
  · exact (exec_cfg h :)
  · cases h; rfl
  · exact (exec_cfg h :)
  · exact (exec_cfg h :)
  · exact (exec_cfg h :)

/-! ### A lost phase (70_reset_and_hazards.md R212) -/

/-- What three `CMD 0x30` are to reach, with the requests `q` left: a legal state in Eight-bit, one-line mode with
the phase at the high nibble. -/
def PhaseRecovered (q : List Request) (t : State) : Prop :=
  t.bitMode = .eight ∧ t.hhn = true ∧ t.twoLineMode = false ∧ t.pending = q ∧ t.Legal

section recovery
variable {s : State} {q : List Request} (hs : s.Legal)
include hs

/-- Function set with DL set and N clear, whatever its ignored bits. -/
theorem exec_functionSet_phaseRecovered (x : BitVec 3) :
    ∃ t, exec (.functionSet true false x) s = .next t ∧ PhaseRecovered s.pending t :=
  ⟨_, execFunctionSet_next true false x s, rfl, rfl, rfl, rfl,
    hs.cfg, hs.ddram, hs.cgram, hs.frame, hs.cursorX, hs.scrollOffset⟩

theorem step_functionSet_eight_phaseRecovered (hmode : s.bitMode = .eight)
    (h : s.pending = requests [.writeCommand 0x30] ++ q) :
    ∃ t, step s = .next t ∧ PhaseRecovered q t := by
  rw [step_writeCommand_eight (q := q) h hmode]
  exact exec_functionSet_phaseRecovered (s := { s with pending := q, ir := 0x30 })
    ⟨hs.cfg, hs.ddram, hs.cgram, hs.frame, hs.cursorX, hs.scrollOffset⟩ 0

/-- With the phase at the high nibble two `CMD 0x30` are one byte 0x33, in Eight-bit mode two bytes 0x30. -/
theorem runSteps_two_phaseRecovered (hphase : s.bitMode = .four → s.hhn = true)
    (h : s.pending = requests [.writeCommand 0x30, .writeCommand 0x30] ++ q) :
    ∃ t, runSteps 2 s = .next t ∧ PhaseRecovered q t := by
  cases hmode : s.bitMode with
  | eight =>
    obtain ⟨u, hstep, hwidth, -, -, hpending, hu⟩ :=
      step_functionSet_eight_phaseRecovered (q := requests [.writeCommand 0x30] ++ q) hs hmode h
    rw [runSteps_two_of_step hstep]
    exact step_functionSet_eight_phaseRecovered hu hwidth hpending
  | four =>
    obtain ⟨hpair, -⟩ := nibblePairActsAsTheWholeByte s 0x30 0x30 q hmode (hphase hmode)
    obtain ⟨hrun, -⟩ := hpair h
    rw [hrun]
    exact exec_functionSet_phaseRecovered (s := { s with pending := q, ir := 0x33 })
      ⟨hs.cfg, hs.ddram, hs.cgram, hs.frame, hs.cursorX, hs.scrollOffset⟩ 3

/-- A low transfer completes some byte with a stale high nibble; whatever command that runs, the next transfer is
at the high nibble. -/
theorem step_writeCommand_low_phase (hmode : s.bitMode = .four) (hlow : s.hhn = false) {b : Byte}
    (h : s.pending = .transaction (.writeCommand b) :: q) :
    ∃ t, step s = .next t ∧ t.hhn = true ∧ t.pending = q ∧ t.Legal := by
  obtain ⟨t, hstep, ht⟩ := step_answersLegal hs
  obtain ⟨htoggle, -⟩ := phaseMovesOncePerTransfer s t _ q h hstep
  refine ⟨t, hstep, ?_, exec_pending ((step_writeCommand_low h hmode hlow).symm.trans hstep), ht⟩
  rw [htoggle hmode, hlow, Bool.not_false]

end recovery

/-- Settles O11: with the phase lost the first transfer brings it to the high nibble and the other two recover;
else the first two recover and the third is a whole byte that changes no more. -/
theorem threeFunctionSetsRecoverThePhase : Obligations.ThreeFunctionSetsRecoverThePhase := by
  intro s q hs h
  by_cases hlost : s.bitMode = .four ∧ s.hhn = false
  · obtain ⟨hmode, hlow⟩ := hlost
    obtain ⟨u, hstep, hphase, hpending, hu⟩ :=
      step_writeCommand_low_phase hs hmode hlow (q := requests [.writeCommand 0x30, .writeCommand 0x30] ++ q) h
    rw [runSteps_of_step hstep]
    exact runSteps_two_phaseRecovered hu (fun _ => hphase) hpending
  · have hphase : s.bitMode = .four → s.hhn = true := by simpa using hlost
    obtain ⟨u, hrun, hwidth, -, -, hpending, hu⟩ :=
      runSteps_two_phaseRecovered (q := requests [.writeCommand 0x30] ++ q) hs hphase h
    rw [runSteps_add_of_next hrun 1, runSteps_one]
    exact step_functionSet_eight_phaseRecovered hu hwidth hpending

/-! ### The overlaid redraw (70_reset_and_hazards.md R217) -/

/-- A cell of the half that is drawn last has no later cell in its own columns. -/
theorem later_columns_ne {o : RedrawOrder} {i : Nat} {earlier later : List Nat}
    (horder : cellOrder o = earlier ++ i :: later)
    (hi : if o = .ascending then 40 ≤ i ∧ i < 80 else i < 40) : ∀ j ∈ later, j % 40 ≠ i % 40 := by
  intro j hj
  have hj80 : j < 80 :=
    mem_cellOrder.1 (horder ▸ List.mem_append_right _ (List.mem_cons_of_mem _ hj))
  cases o with
  | ascending =>
    have hsorted : (earlier ++ i :: later).Pairwise (· < ·) := horder ▸ List.pairwise_lt_range
    have hlt : i < j := (List.pairwise_cons.1 (List.pairwise_append.1 hsorted).2.1).1 j hj
    have hhalf : 40 ≤ i ∧ i < 80 := hi
    omega
  | descending =>
    have hsorted : (earlier ++ i :: later).Pairwise (· > ·) :=
      horder ▸ List.pairwise_reverse.2 List.pairwise_lt_range
    have hgt : i > j := (List.pairwise_cons.1 (List.pairwise_append.1 hsorted).2.1).1 j hj
    have hhalf : i < 40 := hi
    omega

/-- After a full redraw the bits of a cell of the half drawn last show that cell. -/
theorem redrawAll_bit_of_last {c : Config} (hc : c.wf = true) {twoLine : Bool} {ddram cgram : Memory}
    {f f' : List FrameWord} (hf : f.length = c.frameLen)
    (h : redrawAll c twoLine ddram cgram f = .stored f') {i n b : Nat}
    (hi : if c.redrawOrder = .ascending then 40 ≤ i ∧ i < 80 else i < 40)
    (hown : covers c twoLine i n b) :
    (frameWord f' n).getLsbD b = cellBit c twoLine ddram cgram i n b := by
  obtain ⟨g, hg, -, -, hlast⟩ := renderCells_stored hc twoLine ddram cgram (cellOrder c.redrawOrder) hf
  cases h.symm.trans hg
  have hi80 : i < 80 := by split at hi <;> omega
  obtain ⟨earlier, later, horder⟩ := List.append_of_mem (mem_cellOrder.2 hi80)
  exact hlast earlier i later horder n b hown fun j hj hcov =>
    later_columns_ne horder hi j hj (hcov.1.symm.trans hown.1)

/-- Settles O36: every cell's rows begin at bit 0, and the cell is the last that is drawn there. -/
theorem overlaidRedrawShowsTheLastCells : Obligations.OverlaidRedrawShowsTheLastCells := by
  intro s t instr hs hoverlaid hredraws hexec i r k hi hr hk
  obtain ⟨hcfg, hline, hredraw⟩ := exec_redraws hredraws hexec
  rw [← hcfg] at hoverlaid hi hr
  rw [← hline] at hoverlaid
  have hbase : rowBase t.cfg.duty t.twoLineMode i = 0 :=
    if_neg fun ⟨hduty, htwo, _⟩ => hoverlaid ⟨hduty, htwo⟩
  have hrow : r = rowBase t.cfg.duty t.twoLineMode i + r := by rw [hbase, Nat.zero_add]
  rw [hrow, framePixel,
    redrawAll_bit_of_last (hcfg ▸ hs.cfg) (hcfg ▸ hs.frame) hredraw hi (covers_pixel _ _ _ hr hk),
    cellBit_eq_cellPixel t i r hk, ← hrow]

/-! ### Construction and reset (70_reset_and_hazards.md R200 to R207) -/

/-- What a construction that completes has made. -/
theorem construct_next {n : Nat} {c : Config} {dr ir : Byte} {m : Memory} {s : State}
    (h : construct n c dr ir m = .next s) :
    ∃ d, Duty.ofNumber n = some d ∧ s = State.resetWith { c with duty := d } dr ir m := by
  cases hn : Duty.ofNumber n with
  | none => exact nomatch (construct_of_none hn c dr ir m).symm.trans h
  | some d =>
    rw [construct_of_some hn] at h
    split at h
    · cases h; exact ⟨d, rfl, rfl⟩
    · cases h

/-- Settles O43: construction stores its argument, and by `step_cfg` no step writes it. -/
theorem configurationNeverChanges : Obligations.ConfigurationNeverChanges := by
  refine ⟨fun n c dr ir m s h => ?_, fun s t => step_cfg⟩
  obtain ⟨d, hd, rfl⟩ := construct_next h
  exact ⟨hd, rfl⟩

theorem resetWith_legal {c : Config} (hc : c.wf = true) (dr ir : Byte) {m : Memory}
    (hm : Memory.wf .cgram m = true) : (State.resetWith c dr ir m).Legal := by
  obtain ⟨-, hframe, -⟩ := (Config.wf_iff c).1 hc
  exact ⟨hc, Memory.wf_nil .ddram, hm, hframe, Nat.zero_lt_succ 39, Nat.zero_lt_succ 39⟩

/-- Settles O49: `State.reset` is one of the states after construction, of the standard configuration. -/
theorem resetIsLegal : Obligations.ResetIsLegal :=
  ⟨fun _ dr ir _ hc hm => resetWith_legal hc dr ir hm,
    resetWith_legal (Config.standard_wf Config.fontRom) 0 0 (Memory.wf_nil .cgram)⟩

/-- A read of AC in Eight-bit mode. -/
theorem step_readCommand_eight {s : State} {q : List Request} (hmode : s.bitMode = .eight)
    (h : s.pending = .transaction .readCommand :: q) :
    step s = .next { s with pending := q, replies := s.replies ++ [.commandByte (0#1 ++ s.ac)] } := by
  rw [step_readCommand h, exec_rdCmd_eq_giveByte]
  exact congrArg Host.Outcome.next (giveByte_eight _ _ hmode)

/-- In Eight-bit mode the two reads and a snapshot show AC, DR and the frame, and change nothing. -/
theorem runSteps_observe_eight {s : State} {q : List Request} (hmode : s.bitMode = .eight)
    (h : s.pending = requests [.readCommand, .readData] ++ .snapshot :: q) :
    runSteps 3 s = .next { s with
      pending := q
      replies := s.replies ++ [.commandByte (0#1 ++ s.ac), .dataByte s.dr, .frameWords s.frame] } := calc
  runSteps 3 s
  _ = runSteps 2 { s with
        pending := requests [.readData] ++ .snapshot :: q
        replies := s.replies ++ [.commandByte (0#1 ++ s.ac)] } :=
    runSteps_of_step (step_readCommand_eight hmode h) 2
  _ = step { s with
        pending := .snapshot :: q
        replies := s.replies ++ [.commandByte (0#1 ++ s.ac)] ++ [.dataByte s.dr] } :=
    runSteps_two_of_step (step_readData_eight (by exact hmode) rfl)
  _ = _ := by
    rw [step_snapshot rfl]
    simp [giveSnapshot, snapshot]

/-- Settles O51: the values are those of `State.resetWith`, and the reads show them in Eight-bit mode. -/
theorem resetValuesAndFirstReads : Obligations.ResetValuesAndFirstReads := by
  intro n c dr ir m s h
  obtain ⟨d, -, rfl⟩ := construct_next h
  refine ⟨⟨rfl, rfl, rfl, rfl, rfl, rfl, rfl, rfl⟩,
    ⟨fun i _ => Memory.read_nil .ddram i, rfl, rfl, rfl, rfl, rfl, rfl, rfl, rfl, rfl⟩, ?_⟩
  rw [runSteps_observe_eight (q := []) rfl rfl]
  simp

end Sys2Proof.Machine
